-- ==== Sys2Proof/Word.lean ====
section
/-! DEFINITION. Bytes, heap addresses, the eleven kinds and the tagged value (10_state.md R21 to R24). -/

namespace Sys2Proof

/-- One byte of the code buffer (R50). -/
abbrev Byte := BitVec 8

/-- The content of a register-index operand field: any byte; 8 to 255 are refused when the
instruction executes, not before (R27, R78). -/
abbrev RegIndex := BitVec 8

/-- The content of a heap-address operand field, an unsigned 32-bit number (R71, D5). -/
abbrev HeapAddr := BitVec 32

/-- The kinds of a tagged value, in the spec's order (R21). -/
inductive Kind where
  | none | u8 | i8 | u16 | i16 | u32 | i32 | u64 | i64 | f32 | f64
  deriving DecidableEq, Repr

/-- How many bytes the payload of a kind has (R21). -/
def Kind.bytes : Kind → Nat
  | .none => 0
  | .u8 | .i8 => 1
  | .u16 | .i16 => 2
  | .u32 | .i32 | .f32 => 4
  | .u64 | .i64 | .f64 => 8

/-- The bit width `N` of a kind's payload (R21; `N` as in 40_tagged_value_alu.md). -/
def Kind.width (k : Kind) : Nat := 8 * k.bytes

/-- The unsigned integer kinds (R21, R22). -/
def Kind.isUnsigned : Kind → Bool
  | .u8 | .u16 | .u32 | .u64 => true
  | .none | .i8 | .i16 | .i32 | .i64 | .f32 | .f64 => false

/-- The signed integer kinds (R21, R22). -/
def Kind.isSigned : Kind → Bool
  | .i8 | .i16 | .i32 | .i64 => true
  | .none | .u8 | .u16 | .u32 | .u64 | .f32 | .f64 => false

/-- The integer kinds (glossary of 00_scope.md). -/
def Kind.isInteger (k : Kind) : Bool := k.isUnsigned || k.isSigned

/-- The float kinds (glossary of 00_scope.md). -/
def Kind.isFloat : Kind → Bool
  | .f32 | .f64 => true
  | .none | .u8 | .i8 | .u16 | .i16 | .u32 | .i32 | .u64 | .i64 => false

/-- A tagged value `(k, p)`: a kind and a payload bit pattern of exactly that kind's width
(R8, R21). Every pattern of the width is a legal payload (R23, I23). -/
structure Value where
  kind : Kind
  bits : BitVec kind.width
  deriving DecidableEq, Repr

/-- `none`, the one value of the empty kind (R8, R24). -/
def Value.empty : Value := ⟨.none, 0⟩

/-- The value of kind `k` whose pattern is `n` reduced modulo `2^N` (`trunc_N` of R6). -/
def Value.ofNat (k : Kind) (n : Nat) : Value := ⟨k, BitVec.ofNat k.width n⟩

/-- The value of kind `k` whose pattern is the integer `i` reduced modulo `2^N` (`trunc_N` of R6). -/
def Value.ofInt (k : Kind) (i : Int) : Value := ⟨k, BitVec.ofInt k.width i⟩

end Sys2Proof
end

