-- ==== Sys2Proof/Config.lean ====
section
/-! DEFINITION. What one instance fixes at construction (00_scope.md R5) and the free values. -/

namespace Sys2Proof

/-- The configuration of one instance, fixed for its lifetime (R5, R36). `heapSize` and `code` are the
constructor's parameters (R40); `initValue` is the "zero" that registers and heap cells start with
(R41, D7, I12); `stackCapacity` bounds the operand stack of a bounded build, `none` meaning unbounded
(R29, D25, I13). -/
structure Params where
  code : List Byte
  heapSize : Nat
  initValue : Value
  stackCapacity : Option Nat
  deriving DecidableEq, Repr

/-- `code_len` (R5). -/
abbrev Params.codeLen (p : Params) : Nat := p.code.length

namespace Config

/-- The spec's decision for `init_value` (R41, D7). -/
def initValue : Value := Value.empty

/-- The spec's normative stack bound: unbounded (R28, D25). -/
def stackCapacity : Option Nat := none

/-- DESIGN CHOICE (log 2): the `heap_size` of `State.reset`, the value of the scenario E7; the spec lets
the constructor supply any natural. -/
def resetHeapSize : Nat := 1024

/-- `code_len` is below this bound (R5, D31). -/
def codeLenBound : Nat := 2 ^ 64

/-- Free value (log 6): the raw bits behind the n-th NaN payload drawn, were it an f32 (`nan_choice`,
R121, D12, I14). Nothing is known of it. -/
opaque nanDraw32 : Nat → BitVec 32

/-- Free value (log 6): as `nanDraw32`, for f64. -/
opaque nanDraw64 : Nat → BitVec 64

end Config

end Sys2Proof
end

