-- ==== Sys2Proof/Syntax.lean ====
section
/-! DEFINITION. The thirty instructions of spec/opcode_table.json, one constructor a row, operands in the
order of the formats of 30_encoding.md R74. -/

namespace Sys2Proof

/-- An instruction: its mnemonic and its decoded operand fields (R71, R74, R75). Register operands keep
their byte 0 to 255 (R78); a tagged immediate is a `Value` (R73). -/
inductive Instr where
  | nop
  | mov (r : RegIndex) (imm : Value)
  | movr (r1 r2 : RegIndex)
  | jmp (r : RegIndex)
  | je (r : RegIndex)
  | jne (r : RegIndex)
  | cmp (r1 r2 : RegIndex)
  | printr (r : RegIndex)
  | jl (r : RegIndex)
  | vstore (a : HeapAddr) (imm : Value)
  | vload (a : HeapAddr)
  | vstorer (a : HeapAddr) (r : RegIndex)
  | vloadr (r : RegIndex) (a : HeapAddr)
  | add (r1 r2 : RegIndex)
  | sub (r1 r2 : RegIndex)
  | mul (r1 r2 : RegIndex)
  | div (r1 r2 : RegIndex)
  | and (r1 r2 : RegIndex)
  | or (r1 r2 : RegIndex)
  | xor (r1 r2 : RegIndex)
  | shr (r : RegIndex) (imm : Value)
  | shl (r : RegIndex) (imm : Value)
  | halt
  | jg (r : RegIndex)
  | vpush (imm : Value)
  | vpushr (r : RegIndex)
  | vpop (r : RegIndex)
  | call (r : RegIndex)
  | ret
  | printv (a : HeapAddr)
  deriving DecidableEq, Repr

end Sys2Proof
end

