-- ==== Sys2Proof/WellFormed.lean ====
section
/-! DEFINITION. Which instructions the encoding can express. -/

namespace Sys2Proof

/-- The tagged immediate of an instruction, where its format has one (R74: RI, AI, I). -/
def Instr.immediate? : Instr → Option Value
  | .mov _ imm | .vstore _ imm | .shr _ imm | .shl _ imm | .vpush imm => some imm
  | .nop | .movr _ _ | .jmp _ | .je _ | .jne _ | .cmp _ _ | .printr _ | .jl _ | .vload _
  | .vstorer _ _ | .vloadr _ _ | .add _ _ | .sub _ _ | .mul _ _ | .div _ _ | .and _ _ | .or _ _
  | .xor _ _ | .halt | .jg _ | .vpushr _ | .vpop _ | .call _ | .ret | .printv _ => none

/-- Well-formed: the immediate, if there is one, is not of kind `none`, for which no kind tag
exists (R73). Register bytes 0 to 255 and every heap address are encodable (R78), and every payload
pattern of a kind is legal (I23), so nothing else is checked. -/
def Instr.wellFormed (i : Instr) : Bool :=
  match i.immediate? with
  | some imm => decide (imm.kind ≠ .none)
  | none => true

end Sys2Proof
end

