-- ==== Sys2Proof/Decode.lean ====
section
/-! DEFINITION. The instruction encoding: kind tags, byte order, opcode map, decoder and encoder
(30_encoding.md R70 to R80). -/

namespace Sys2Proof

/-- The errors of the decoder (R210): an unrecognised opcode byte or kind tag, and too few bytes. -/
inductive DecodeError where
  | invalidOpcode
  | truncatedInstruction
  deriving DecidableEq, Repr

/-- `le(b0, b1, ...)` of R6: the little-endian number of a byte sequence (R54, D4). -/
def leNat : List Byte → Nat
  | [] => 0
  | b :: bs => b.toNat + 256 * leNat bs

/-- The `n` lowest bytes of a number, least significant first (R54, D4). -/
def leBytes : Nat → Nat → List Byte
  | 0, _ => []
  | n + 1, v => BitVec.ofNat 8 v :: leBytes n (v / 256)

/-- The kind a kind-tag byte names; 10 to 255 name none (R72, D2, D3). -/
def kindOfTag : Nat → Option Kind
  | 0 => some .u8
  | 1 => some .i8
  | 2 => some .u16
  | 3 => some .i16
  | 4 => some .u32
  | 5 => some .i32
  | 6 => some .u64
  | 7 => some .i64
  | 8 => some .f32
  | 9 => some .f64
  | _ => none

/-- The kind-tag byte of a kind (R72). The empty kind has no tag (R73); 255 stands in for it here, which
the decoder refuses. -/
def tagOfKind : Kind → Byte
  | .u8 => 0
  | .i8 => 1
  | .u16 => 2
  | .i16 => 3
  | .u32 => 4
  | .i32 => 5
  | .u64 => 6
  | .i64 => 7
  | .f32 => 8
  | .f64 => 9
  | .none => 255

/-- The nine formats of R74, each with the instruction its operand fields make. -/
inductive Layout where
  | n (i : Instr)
  | r (mk : RegIndex → Instr)
  | rr (mk : RegIndex → RegIndex → Instr)
  | ri (mk : RegIndex → Value → Instr)
  | a (mk : HeapAddr → Instr)
  | ai (mk : HeapAddr → Value → Instr)
  | ar (mk : HeapAddr → RegIndex → Instr)
  | ra (mk : RegIndex → HeapAddr → Instr)
  | i (mk : Value → Instr)

/-- The opcode map of R75 (D1); 30 to 255 are illegal (R76). -/
def opcodeMap : Nat → Option Layout
  | 0 => some (.n .nop)
  | 1 => some (.ri .mov)
  | 2 => some (.rr .movr)
  | 3 => some (.r .jmp)
  | 4 => some (.r .je)
  | 5 => some (.r .jne)
  | 6 => some (.rr .cmp)
  | 7 => some (.r .printr)
  | 8 => some (.r .jl)
  | 9 => some (.ai .vstore)
  | 10 => some (.a .vload)
  | 11 => some (.ar .vstorer)
  | 12 => some (.ra .vloadr)
  | 13 => some (.rr .add)
  | 14 => some (.rr .sub)
  | 15 => some (.rr .mul)
  | 16 => some (.rr .div)
  | 17 => some (.rr .and)
  | 18 => some (.rr .or)
  | 19 => some (.rr .xor)
  | 20 => some (.ri .shr)
  | 21 => some (.ri .shl)
  | 22 => some (.n .halt)
  | 23 => some (.r .jg)
  | 24 => some (.i .vpush)
  | 25 => some (.r .vpushr)
  | 26 => some (.r .vpop)
  | 27 => some (.r .call)
  | 28 => some (.n .ret)
  | 29 => some (.a .printv)
  | _ => none

/-- A heap-address field from its four bytes, least significant first (R71, D4, D5). -/
def addrOfBytes (b0 b1 b2 b3 : Byte) : HeapAddr := BitVec.ofNat 32 (leNat [b0, b1, b2, b3])

/-- Reads a tagged immediate at the head of the bytes: the value and the field's length (R72, R73). The
checks stand in the order of R77: missing tag byte, illegal tag, missing payload (D33). -/
def decodeImm : List Byte → Except DecodeError (Value × Nat)
  | [] => .error .truncatedInstruction
  | t :: rest =>
    match kindOfTag t.toNat with
    | none => .error .invalidOpcode
    | some k =>
      if rest.length < k.bytes then .error .truncatedInstruction
      else .ok (Value.ofNat k (leNat (rest.take k.bytes)), 1 + k.bytes)

/-- Reads the operand fields of a format from the bytes after the opcode: the instruction and its width
(R74, R77). -/
def decodeFields : Layout → List Byte → Except DecodeError (Instr × Nat)
  | .n i, _ => .ok (i, 1)
  | .r mk, r :: _ => .ok (mk r, 2)
  | .rr mk, r1 :: r2 :: _ => .ok (mk r1 r2, 3)
  | .ri mk, r :: rest => (decodeImm rest).map fun (v, n) => (mk r v, 2 + n)
  | .a mk, b0 :: b1 :: b2 :: b3 :: _ => .ok (mk (addrOfBytes b0 b1 b2 b3), 5)
  | .ai mk, b0 :: b1 :: b2 :: b3 :: rest =>
    (decodeImm rest).map fun (v, n) => (mk (addrOfBytes b0 b1 b2 b3) v, 5 + n)
  | .ar mk, b0 :: b1 :: b2 :: b3 :: r :: _ => .ok (mk (addrOfBytes b0 b1 b2 b3) r, 6)
  | .ra mk, r :: b0 :: b1 :: b2 :: b3 :: _ => .ok (mk r (addrOfBytes b0 b1 b2 b3), 6)
  | .i mk, rest => (decodeImm rest).map fun (v, n) => (mk v, 1 + n)
  | _, _ => .error .truncatedInstruction

/-- The decoder on the bytes from `ip` to the end of the code buffer: the instruction and its width, or
the first error in the order of R77. On no byte at all it answers `truncatedInstruction`; the sequencer
never asks for that (R82; log 10). -/
def decodeBytes : List Byte → Except DecodeError (Instr × Nat)
  | [] => .error .truncatedInstruction
  | op :: rest =>
    match opcodeMap op.toNat with
    | none => .error .invalidOpcode
    | some l => decodeFields l rest

/-- `decode(code, ip)` of R77: pure, sees only the code buffer and `ip`. -/
def decode (code : List Byte) (ip : Nat) : Except DecodeError (Instr × Nat) :=
  decodeBytes (code.drop ip)

/-- The opcode byte of an instruction (R75). -/
def Instr.opcode : Instr → Byte
  | .nop => 0
  | .mov _ _ => 1
  | .movr _ _ => 2
  | .jmp _ => 3
  | .je _ => 4
  | .jne _ => 5
  | .cmp _ _ => 6
  | .printr _ => 7
  | .jl _ => 8
  | .vstore _ _ => 9
  | .vload _ => 10
  | .vstorer _ _ => 11
  | .vloadr _ _ => 12
  | .add _ _ => 13
  | .sub _ _ => 14
  | .mul _ _ => 15
  | .div _ _ => 16
  | .and _ _ => 17
  | .or _ _ => 18
  | .xor _ _ => 19
  | .shr _ _ => 20
  | .shl _ _ => 21
  | .halt => 22
  | .jg _ => 23
  | .vpush _ => 24
  | .vpushr _ => 25
  | .vpop _ => 26
  | .call _ => 27
  | .ret => 28
  | .printv _ => 29

/-- A heap-address field as bytes (R71). -/
def encodeAddr (a : HeapAddr) : List Byte := leBytes 4 a.toNat

/-- A tagged-immediate field as bytes: kind tag, then payload (R73). -/
def encodeImm (v : Value) : List Byte := tagOfKind v.kind :: leBytes v.kind.bytes v.bits.toNat

/-- The operand fields of an instruction as bytes, in the order of its format (R74). -/
def Instr.fieldBytes : Instr → List Byte
  | .nop | .halt | .ret => []
  | .jmp r | .je r | .jne r | .jg r | .jl r | .printr r | .vpushr r | .vpop r | .call r => [r]
  | .movr r1 r2 | .cmp r1 r2 | .add r1 r2 | .sub r1 r2 | .mul r1 r2 | .div r1 r2 | .and r1 r2
  | .or r1 r2 | .xor r1 r2 => [r1, r2]
  | .mov r imm | .shr r imm | .shl r imm => r :: encodeImm imm
  | .vload a | .printv a => encodeAddr a
  | .vstore a imm => encodeAddr a ++ encodeImm imm
  | .vstorer a r => encodeAddr a ++ [r]
  | .vloadr r a => r :: encodeAddr a
  | .vpush imm => encodeImm imm

/-- `encode(i)` of R80: the byte sequence of R74. -/
def encode (i : Instr) : List Byte := i.opcode :: i.fieldBytes

/-- The width of an instruction in bytes (R74, R79), `pw` being the payload width of its immediate. -/
def Instr.width : Instr → Nat
  | .nop | .halt | .ret => 1
  | .jmp _ | .je _ | .jne _ | .jg _ | .jl _ | .printr _ | .vpushr _ | .vpop _ | .call _ => 2
  | .movr _ _ | .cmp _ _ | .add _ _ | .sub _ _ | .mul _ _ | .div _ _ | .and _ _ | .or _ _
  | .xor _ _ => 3
  | .mov _ imm | .shr _ imm | .shl _ imm => 3 + imm.kind.bytes
  | .vload _ | .printv _ => 5
  | .vstore _ imm => 6 + imm.kind.bytes
  | .vstorer _ _ | .vloadr _ _ => 6
  | .vpush imm => 2 + imm.kind.bytes

/-- The longest instruction, VSTORE with an 8-byte payload (R79). -/
def maxWidth : Nat := 14

/-- The bytes of an instruction given as one number: the first byte is bits 7..0, every bit from `nbits`
up is 0, and the bytes go on to the longest instruction. -/
def tableBytes (nbits w : Nat) : List Byte := leBytes maxWidth (w % 2 ^ nbits)

/-- What this decoder reads from an instruction given as one number. -/
def decodeTableWord (nbits w : Nat) : Option Instr :=
  match decodeBytes (tableBytes nbits w) with
  | .ok (i, _) => some i
  | .error _ => none

end Sys2Proof
end

