-- ==== Sys2Proof/Machine/State.lean ====
section
/-! DEFINITION. The state of one instance (10_state.md R20), the reasons a step can stop, and the state after
construction (R41). -/

namespace Sys2Proof.Machine

/-- The errors of the execute function (R210). -/
inductive ExecutionError where
  | invalidRegister
  | outOfBounds
  | stackUnderflow
  | typeMismatch
  | divisionByZero
  | invalidJumpTarget
  deriving DecidableEq, Repr

/-- The closed error taxonomy: what a fault record can hold (R35, R210). -/
inductive Error where
  | decode (e : DecodeError)
  | execute (e : ExecutionError)
  deriving DecidableEq, Repr

/-- The run state with its fault record (R35). -/
inductive RunState where
  | idle
  | running
  | halted
  | faulted (e : Error)
  deriving DecidableEq, Repr

/-- The heap: cells by address, strictly rising, listing only cells that differ from `init_value`
(log 9). The unit is one whole tagged value; the heap has no byte view (R53). -/
abbrev Heap := List (Nat × Value)

/-- The state of one instance (R20). `params` is its configuration, which nothing changes (R36, log 1).
`stack` has its top first (log 7). `out` is in execution order (R37). `nanDraws` is the model's own: how
many NaN payloads have been drawn (log 6). -/
structure State where
  params : Params
  regs : Vector Value 8
  stack : List Value
  heap : Heap
  ip : Nat
  flagEq : Bool
  flagGt : Bool
  rs : RunState
  out : List Value
  nanDraws : Nat
  deriving DecidableEq, Repr

/-- Why the machine has no next state. -/
inductive Fault where
  /-- Raised by an instruction that pushes onto a bounded stack already at `stack_capacity`: the spec
  gives it no step and no error code, the instance is stuck (R29, D25, R247; log 8). Safe: the model
  stops where the spec's machine stops. -/
  | stackFull
  deriving DecidableEq, Repr

/-- Why the model gives no meaning. -/
inductive Refusal where
  /-- Raised by `exec`'s arm of an instruction that has no meaning yet; no arm raises it. Safe: the model
  stops. -/
  | notModelled (mnemonic : String)
  /-- Raised by `State.new` for code of `2^64` bytes or more, which construction refuses (R5, I10;
  log 13). Safe: no such instance exists. -/
  | codeTooLong
  deriving DecidableEq, Repr

/-- The state that construction leaves, for any parameters (R41, R240). -/
def State.construct (p : Params) : State where
  params := p
  regs := Vector.replicate 8 p.initValue
  stack := []
  heap := []
  ip := 0
  flagEq := false
  flagGt := false
  rs := .idle
  out := []
  nanDraws := 0

/-- `new(code, heap_size)` of R40, with the spec's decisions for the other parameters (D7, D25); code of
`2^64` bytes or more is refused (I10). -/
def State.new (code : List Byte) (heapSize : Nat) : Except Refusal State :=
  if code.length < Config.codeLenBound then
    .ok (State.construct ⟨code, heapSize, Config.initValue, Config.stackCapacity⟩)
  else .error .codeTooLong

/-- The machine right after reset, with nothing placed in its code buffer (R41; log 2). -/
def State.reset : State :=
  State.construct ⟨[], Config.resetHeapSize, Config.initValue, Config.stackCapacity⟩

end Sys2Proof.Machine
end

