-- ==== Sys2Proof/Machine/Operands.lean ====
section
/-! DEFINITION. How the machine reads operands: the numeric readings of a tagged value, register indices,
jump targets (00_scope.md R6; 10_state.md R22, R27; 42_compare_branch.md R150). -/

namespace Sys2Proof.Machine

/-- `uval_N(bits(v))`: the payload as an unsigned number (R6). -/
def uval (v : Value) : Nat := v.bits.toNat

/-- `val(v)` of 40_tagged_value_alu.md for an integer kind: the payload read in two's complement for a
signed kind and unsigned for an unsigned kind (R6, R22). -/
def val (v : Value) : Int := if v.kind.isSigned then v.bits.toInt else (v.bits.toNat : Int)

/-- A register-index operand as a register: an index of 8 or more raises InvalidRegister (R27). -/
def regIndex (r : RegIndex) : Except ExecutionError (Fin 8) :=
  if h : r.toNat < 8 then .ok ⟨r.toNat, h⟩ else .error .invalidRegister

/-- `target(v)` of R150: the offset a tagged value names as a jump destination in code of `codeLen`
bytes (D17). -/
def jumpTarget (codeLen : Nat) (v : Value) : Except ExecutionError Nat :=
  if v.kind.isInteger && decide (0 ≤ val v) && decide (val v ≤ codeLen) then .ok (val v).toNat
  else .error .invalidJumpTarget

end Sys2Proof.Machine
end

