-- ==== Sys2Proof/Machine/Float.lean ====
section
/-! DEFINITION. IEEE 754 binary32 and binary64 arithmetic and comparison on bit patterns
(10_state.md R23; 40_tagged_value_alu.md R114, R120, R121; log 14).

A finite float is read as a sign and a whole number of UNITS, the unit being the format's least positive
subnormal. Sums are exact in units; products and quotients are exact rationals `num / den` of units;
`roundMag` alone rounds. -/

namespace Sys2Proof.Machine

/-- A binary interchange format: its fraction and exponent field widths. -/
structure FloatFormat where
  fracBits : Nat
  expBits : Nat
  deriving DecidableEq, Repr

/-- IEEE 754 binary32 (R23). -/
def binary32 : FloatFormat := ⟨23, 8⟩

/-- IEEE 754 binary64 (R23). -/
def binary64 : FloatFormat := ⟨52, 11⟩

/-- The weight of the sign bit. -/
def FloatFormat.signBit (f : FloatFormat) : Nat := 2 ^ (f.fracBits + f.expBits)

/-- The pattern of +infinity: the exponent field all ones, the fraction zero. Magnitude patterns above it
are the NaNs (R121). -/
def FloatFormat.infMag (f : FloatFormat) : Nat := (2 ^ f.expBits - 1) * 2 ^ f.fracBits

/-- The unit is `2 ^ -unitExp`: 149 for binary32, 1074 for binary64. -/
def FloatFormat.unitExp (f : FloatFormat) : Nat := 2 ^ (f.expBits - 1) - 2 + f.fracBits

/-- How many units a finite magnitude pattern stands for: the fraction alone when the exponent field is
zero (a subnormal or zero), else the fraction with its hidden bit, scaled. -/
def FloatFormat.units (f : FloatFormat) (mag : Nat) : Nat :=
  let e := mag / 2 ^ f.fracBits
  let m := mag % 2 ^ f.fracBits
  if e = 0 then m else (2 ^ f.fracBits + m) * 2 ^ (e - 1)

/-- What a pattern stands for. -/
inductive FloatNum where
  | nan
  | inf (neg : Bool)
  | fin (neg : Bool) (units : Nat)
  deriving DecidableEq, Repr

/-- Reads a pattern of the format (R23). -/
def FloatFormat.unpack (f : FloatFormat) (p : Nat) : FloatNum :=
  let neg := decide (f.signBit ≤ p)
  let mag := p % f.signBit
  if f.infMag < mag then .nan
  else if mag = f.infMag then .inf neg
  else .fin neg (f.units mag)

/-- A pattern from a sign and a magnitude pattern. -/
def FloatFormat.pack (f : FloatFormat) (neg : Bool) (mag : Nat) : Nat :=
  if neg then f.signBit + mag else mag

/-- The magnitude pattern nearest to `num / den` units, ties to the even pattern, overflow to infinity
(R120). `2 ^ e` units is the spacing of the binade the quotient lies in; in a magnitude pattern the
binade's number and the significand simply add up, so a carry out of the significand is right as it
stands. -/
def FloatFormat.roundMag (f : FloatFormat) (num den : Nat) : Nat :=
  let e := Nat.log2 (num / den) - f.fracBits
  let d := den * 2 ^ e
  let m := num / d
  let twice := 2 * (num % d)
  let up := decide (d < twice) || (decide (twice = d) && decide (m % 2 = 1))
  min (e * 2 ^ f.fracBits + (if up then m + 1 else m)) f.infMag

/-- A sign and a number of units as an integer. -/
def signedUnits (neg : Bool) (units : Nat) : Int := if neg then -(units : Int) else units

/-- Addition; `none` is a NaN result (R120, R121). An exact zero sum is `+0` unless both operands are
negative zeros. -/
def FloatFormat.add (f : FloatFormat) (a b : FloatNum) : Option Nat :=
  match a, b with
  | .nan, _ => none
  | _, .nan => none
  | .inf s, .inf t => if s = t then some (f.pack s f.infMag) else none
  | .inf s, .fin _ _ => some (f.pack s f.infMag)
  | .fin _ _, .inf t => some (f.pack t f.infMag)
  | .fin s m, .fin t n =>
    let x := signedUnits s m + signedUnits t n
    some (f.pack (if x = 0 then s && t else decide (x < 0)) (f.roundMag x.natAbs 1))

/-- The sign of a float turned over. -/
def FloatNum.neg : FloatNum → FloatNum
  | .nan => .nan
  | .inf s => .inf (!s)
  | .fin s m => .fin (!s) m

/-- Subtraction: the sum with the second operand's sign turned over (R120). -/
def FloatFormat.sub (f : FloatFormat) (a b : FloatNum) : Option Nat := f.add a b.neg

/-- Multiplication (R120). -/
def FloatFormat.mul (f : FloatFormat) (a b : FloatNum) : Option Nat :=
  match a, b with
  | .nan, _ => none
  | _, .nan => none
  | .inf s, .inf t => some (f.pack (s ^^ t) f.infMag)
  | .inf s, .fin t n => if n = 0 then none else some (f.pack (s ^^ t) f.infMag)
  | .fin s m, .inf t => if m = 0 then none else some (f.pack (s ^^ t) f.infMag)
  | .fin s m, .fin t n => some (f.pack (s ^^ t) (f.roundMag (m * n) (2 ^ f.unitExp)))

/-- Division: a non-zero finite value by zero is an infinity, 0/0 is a NaN (R120). -/
def FloatFormat.div (f : FloatFormat) (a b : FloatNum) : Option Nat :=
  match a, b with
  | .nan, _ => none
  | _, .nan => none
  | .inf _, .inf _ => none
  | .inf s, .fin t _ => some (f.pack (s ^^ t) f.infMag)
  | .fin s _, .inf t => some (f.pack (s ^^ t) 0)
  | .fin s m, .fin t n =>
    if n = 0 then (if m = 0 then none else some (f.pack (s ^^ t) f.infMag))
    else some (f.pack (s ^^ t) (f.roundMag (m * 2 ^ f.unitExp) n))

/-- IEEE equality: neither is NaN and the two are numerically equal, so the two zeros are (R114). -/
def FloatNum.eq : FloatNum → FloatNum → Bool
  | .fin s m, .fin t n => decide (signedUnits s m = signedUnits t n)
  | .inf s, .inf t => decide (s = t)
  | _, _ => false

/-- IEEE greater-than: neither is NaN and the first is numerically greater (R114). -/
def FloatNum.gt : FloatNum → FloatNum → Bool
  | .fin s m, .fin t n => decide (signedUnits s m > signedUnits t n)
  | .fin _ _, .inf t => t
  | .inf s, .fin _ _ => !s
  | .inf s, .inf t => !s && t
  | _, _ => false

/-- Whether a pattern is a NaN: the exponent field all ones and the fraction non-zero (R121). -/
def FloatFormat.isNaN (f : FloatFormat) (p : Nat) : Bool := decide (f.infMag < p % f.signBit)

/-- A NaN pattern from raw bits: the bits themselves where they are a NaN, else one fixed NaN. Every NaN
pattern is its own image, so a free raw value admits every NaN pattern and nothing else (log 6). -/
def FloatFormat.nanOf (f : FloatFormat) (raw : Nat) : Nat :=
  if f.isNaN raw then raw else f.infMag + 1

/-- The format of a float kind (R23); binary64 for every kind but f32, asked for float kinds only. -/
def floatFormat (k : Kind) : FloatFormat := if k = .f32 then binary32 else binary64

/-- What the payload of a float value stands for (R23). -/
def floatNum (v : Value) : FloatNum := (floatFormat v.kind).unpack (uval v)

/-- The `n`-th NaN drawn, were it of kind `k` (`nan_choice`, R121; log 6). -/
def drawnNaN (k : Kind) (n : Nat) : Value :=
  Value.ofNat k
    (if k = .f32 then binary32.nanOf (Config.nanDraw32 n).toNat
     else binary64.nanOf (Config.nanDraw64 n).toNat)

end Sys2Proof.Machine
end

