-- ==== Sys2Proof/Machine/Flags.lean ====
section
/-! DEFINITION. The flag computations of CMP: `cmp_eq` and `cmp_gt` (40_tagged_value_alu.md R110 to R114). -/

namespace Sys2Proof.Machine

/-- `check` of R113 for an ALU function that takes the kinds of `dom`: different kinds, then a kind
outside the function's row of R111, raise TypeMismatch. -/
def checkKinds (dom : Kind → Bool) (a b : Value) : Except ExecutionError Unit :=
  if a.kind ≠ b.kind then .error .typeMismatch
  else if !dom a.kind then .error .typeMismatch
  else .ok ()

/-- The kinds of R111's first two rows: integers and floats. -/
def numericKind (k : Kind) : Bool := k.isInteger || k.isFloat

/-- `cmp_eq` after `check` (R114). -/
def cmpEq (a b : Value) : Bool :=
  if a.kind.isFloat then (floatNum a).eq (floatNum b) else decide (val a = val b)

/-- `cmp_gt` after `check` (R114). -/
def cmpGt (a b : Value) : Bool :=
  if a.kind.isFloat then (floatNum a).gt (floatNum b) else decide (val a > val b)

/-- The pair of flags a CMP writes, or TypeMismatch (R113, R114, R151). -/
def cmpFlags (a b : Value) : Except ExecutionError (Bool × Bool) := do
  checkKinds numericKind a b
  return (cmpEq a b, cmpGt a b)

end Sys2Proof.Machine
end

