-- ==== Sys2Proof/Machine/Alu.lean ====
section
/-! DEFINITION. The tagged-value ALU: `add`, `sub`, `mul`, `div`, `and`, `or`, `xor`, `shr`, `shl`
(40_tagged_value_alu.md R110 to R122). It reads no state and writes no flag (R122). -/

namespace Sys2Proof.Machine

/-- What an ALU function yields: a value, or a NaN of a kind, whose payload the machine draws (R121). -/
inductive AluResult where
  | value (v : Value)
  | nan (k : Kind)
  deriving DecidableEq, Repr

/-- A float operation's answer as a result of kind `k` (R112, R121). -/
def floatResult (k : Kind) : Option Nat → AluResult
  | some p => .value (Value.ofNat k p)
  | none => .nan k

/-- `add` (R116, R120). -/
def aluAdd (a b : Value) : Except ExecutionError AluResult := do
  checkKinds numericKind a b
  if a.kind.isFloat then
    return floatResult a.kind ((floatFormat a.kind).add (floatNum a) (floatNum b))
  else return .value (Value.ofInt a.kind (val a + val b))

/-- `sub` (R116, R120). -/
def aluSub (a b : Value) : Except ExecutionError AluResult := do
  checkKinds numericKind a b
  if a.kind.isFloat then
    return floatResult a.kind ((floatFormat a.kind).sub (floatNum a) (floatNum b))
  else return .value (Value.ofInt a.kind (val a - val b))

/-- `mul` (R116, R120). -/
def aluMul (a b : Value) : Except ExecutionError AluResult := do
  checkKinds numericKind a b
  if a.kind.isFloat then
    return floatResult a.kind ((floatFormat a.kind).mul (floatNum a) (floatNum b))
  else return .value (Value.ofInt a.kind (val a * val b))

/-- `div`: an integer zero divisor raises DivisionByZero, the quotient is truncated toward zero and
wraps; a float division raises nothing (R117, R120, D11). -/
def aluDiv (a b : Value) : Except ExecutionError AluResult := do
  checkKinds numericKind a b
  if a.kind.isFloat then
    return floatResult a.kind ((floatFormat a.kind).div (floatNum a) (floatNum b))
  else if val b = 0 then throw .divisionByZero
  else return .value (Value.ofInt a.kind ((val a).tdiv (val b)))

/-- `and`, on the bit patterns (R118); integer kinds only (R111). -/
def aluAnd (a b : Value) : Except ExecutionError AluResult := do
  checkKinds Kind.isInteger a b
  return .value (Value.ofNat a.kind (uval a &&& uval b))

/-- `or` (R118). -/
def aluOr (a b : Value) : Except ExecutionError AluResult := do
  checkKinds Kind.isInteger a b
  return .value (Value.ofNat a.kind (uval a ||| uval b))

/-- `xor` (R118). -/
def aluXor (a b : Value) : Except ExecutionError AluResult := do
  checkKinds Kind.isInteger a b
  return .value (Value.ofNat a.kind (uval a ^^^ uval b))

/-- `shift_amount` of R119: zero raises DivisionByZero, any other pattern is taken modulo `N` (C5, D16). -/
def shiftAmount (b : Value) : Except ExecutionError Nat :=
  if uval b = 0 then .error .divisionByZero else .ok (uval b % b.kind.width)

/-- `shr` of R119: the floor of the value by `2^s`, the value read unsigned for an unsigned kind (a logical
shift) and signed for a signed kind (an arithmetic one). -/
def aluShr (a b : Value) : Except ExecutionError AluResult := do
  checkKinds Kind.isInteger a b
  let s ← shiftAmount b
  return .value (Value.ofInt a.kind (val a / 2 ^ s))

/-- `shl` of R119. -/
def aluShl (a b : Value) : Except ExecutionError AluResult := do
  checkKinds Kind.isInteger a b
  let s ← shiftAmount b
  return .value (Value.ofNat a.kind (uval a * 2 ^ s))

end Sys2Proof.Machine
end

