-- ==== Sys2Proof/Machine/Ops.lean ====
section
/-! DEFINITION. The named operations over registers, stack, heap, output and run state, fault entry, and the way
the outcome of the execute function becomes the next state (00_scope.md R7, R9; 30_encoding.md R81, R82;
60_exceptions.md R210 to R214). -/

namespace Sys2Proof.Machine

/-! ### Outcomes -/

/-- The outcome of an executed instruction that raises nothing (R9). -/
inductive Flow where
  | fallThrough
  | jump (target : Nat)
  | halt
  deriving DecidableEq, Repr

/-- Why an instruction does not complete: it raises an error, or there is no step (R29). -/
inductive Stop where
  | raise (e : ExecutionError)
  | stuck (f : Fault)
  deriving DecidableEq, Repr

/-- The execute function's answer (R81): the state it leaves and its outcome, or why it stops. -/
abbrev Effect := Except Stop (State × Flow)

/-- `raise E` of R7, from a check that can only raise. -/
def raising {α : Type} : Except ExecutionError α → Except Stop α
  | .ok a => .ok a
  | .error e => .error (.raise e)

/-- The number of an error in the fault record (R211, D23). -/
def Error.code : Error → Nat
  | .decode .invalidOpcode => 1
  | .decode .truncatedInstruction => 2
  | .execute .invalidRegister => 3
  | .execute .outOfBounds => 4
  | .execute .stackUnderflow => 5
  | .execute .typeMismatch => 6
  | .execute .divisionByZero => 7
  | .execute .invalidJumpTarget => 8

/-- The number the host reads from the run state: 0 unless it is Faulted (R211). -/
def RunState.code : RunState → Nat
  | .faulted e => e.code
  | .idle | .running | .halted => 0

/-- FAULT ENTRY, for decode and execution errors alike (R213, R214): the run state records the error and
nothing else changes, so `ip` keeps the faulting instruction's offset. There is no return from a
fault (R215). -/
def State.raise (s : State) (e : Error) : Host.Outcome State Fault Refusal :=
  .next { s with rs := .faulted e }

/-- Entering Halted: `ip` and all else stay (R83, R202). -/
def State.halt (s : State) : State := { s with rs := .halted }

/-- Setting `ip`. -/
def State.setIp (s : State) (t : Nat) : State := { s with ip := t }

/-- What the sequencer makes of the execute function's answer to an instruction of width `w` at `s.ip`
(R82). An error discards what the instruction did: the fault is entered from the state before it
(R213). -/
def State.finish (s : State) (w : Nat) : Effect → Host.Outcome State Fault Refusal
  | .ok (t, .fallThrough) => .next (t.setIp (s.ip + w))
  | .ok (t, .jump target) => .next (t.setIp target)
  | .ok (t, .halt) => .next t.halt
  | .error (.raise e) => s.raise (.execute e)
  | .error (.stuck f) => .fault f

/-! ### Registers (R7, R25, R27) -/

/-- `x[i]`. -/
def State.reg (s : State) (i : Fin 8) : Value := s.regs[i]

/-- `x[i] <- v`. -/
def State.writeReg (s : State) (i : Fin 8) (v : Value) : State :=
  { s with regs := s.regs.set i v }

/-- A register operand read: InvalidRegister for an index of 8 or more (R27). -/
def State.readOperand (s : State) (r : RegIndex) : Except Stop Value := do
  let i ← raising (regIndex r)
  return s.reg i

/-! ### Operand stack (R28, R29) -/

/-- Whether the stack is at `stack_capacity`; an unbounded stack never is (R29). -/
def State.stackIsFull (s : State) : Bool :=
  match s.params.stackCapacity with
  | none => false
  | some c => decide (c ≤ s.stack.length)

/-- `push(v)`; no step on a full bounded stack (R29, D25). -/
def State.push (s : State) (v : Value) : Except Stop State :=
  if s.stackIsFull then .error (.stuck .stackFull) else .ok { s with stack := v :: s.stack }

/-- `top(S)`: StackUnderflow when the stack is empty (R28). -/
def State.top (s : State) : Except Stop Value :=
  match s.stack with
  | [] => .error (.raise .stackUnderflow)
  | v :: _ => .ok v

/-- The state without its top element. -/
def State.dropTop (s : State) : State := { s with stack := s.stack.tail }

/-! ### Heap (R30, R52, R53) -/

/-- What a cell holds; an unlisted cell holds `init_value` (R41, R53). -/
def Heap.read (init : Value) : Heap → Nat → Value
  | [], _ => init
  | (b, v) :: h, a => if a = b then v else Heap.read init h a

/-- The heap with cell `a` set to `v`, in the canonical form: a cell set to `init_value` is not listed. -/
def Heap.write (init : Value) : Heap → Nat → Value → Heap
  | [], a, v => if v = init then [] else [(a, v)]
  | (b, u) :: h, a, v =>
    if a < b then (if v = init then (b, u) :: h else (a, v) :: (b, u) :: h)
    else if a = b then (if v = init then h else (a, v) :: h)
    else (b, u) :: Heap.write init h a v

/-- The canonical form from address `lo` up: addresses strictly rising, no cell listed at `init_value`. -/
def Heap.wfFrom (init : Value) : Nat → Heap → Bool
  | _, [] => true
  | lo, (a, v) :: h => decide (lo ≤ a) && decide (v ≠ init) && Heap.wfFrom init (a + 1) h

/-- The canonical form (log 9). -/
def Heap.wf (init : Value) (h : Heap) : Bool := Heap.wfFrom init 0 h

/-- Cell `a` of the heap. -/
def State.cell (s : State) (a : Nat) : Value := Heap.read s.params.initValue s.heap a

/-- `MemRead(a, 1)` of R52. -/
def State.memRead (s : State) (a : HeapAddr) : Except Stop Value :=
  if a.toNat ≥ s.params.heapSize then .error (.raise .outOfBounds) else .ok (s.cell a.toNat)

/-- `MemWrite(a, 1, v)` of R52. -/
def State.memWrite (s : State) (a : HeapAddr) (v : Value) : Except Stop State :=
  if a.toNat ≥ s.params.heapSize then .error (.raise .outOfBounds)
  else .ok { s with heap := Heap.write s.params.initValue s.heap a.toNat v }

/-! ### Flags, output, NaN payloads -/

/-- Both flags at once (R33). -/
def State.setFlags (s : State) (eq gt : Bool) : State := { s with flagEq := eq, flagGt := gt }

/-- `emit(v)` (R37): the output port takes every value at once. -/
def State.emit (s : State) (v : Value) : State := { s with out := s.out ++ [v] }

/-- An ALU result as a value: a NaN result takes the next payload to be drawn (R121; log 6). -/
def State.resultValue (s : State) : AluResult → Value
  | .value v => v
  | .nan k => drawnNaN k s.nanDraws

/-- How many payloads an ALU result draws (R121; log 6). -/
def AluResult.draws : AluResult → Nat
  | .value _ => 0
  | .nan _ => 1

/-! ### Instruction shapes shared by several opcodes -/

/-- The end of every ALU instruction: the result is pushed (R170). -/
def State.pushResult (s : State) (r : AluResult) : Effect := do
  let t ← s.push (s.resultValue r)
  return ({ t with nanDraws := t.nanDraws + r.draws }, .fallThrough)

/-- `ALU2(f, r1, r2)` of R170. -/
def State.alu2 (s : State) (f : Value → Value → Except ExecutionError AluResult)
    (r1 r2 : RegIndex) : Effect := do
  let a ← s.readOperand r1
  let b ← s.readOperand r2
  let v ← raising (f a b)
  s.pushResult v

/-- The shifts' form: a register operand and a tagged immediate amount (R178, R179). -/
def State.aluImm (s : State) (f : Value → Value → Except ExecutionError AluResult)
    (r : RegIndex) (imm : Value) : Effect := do
  let a ← s.readOperand r
  let v ← raising (f a imm)
  s.pushResult v

/-- The jumps' form (R152 to R156): the register index is checked always, the target only when the jump
is taken (D18). -/
def State.jumpIf (s : State) (taken : Bool) (r : RegIndex) : Effect := do
  let v ← s.readOperand r
  if taken then
    let t ← raising (jumpTarget s.params.codeLen v)
    return (s, .jump t)
  else return (s, .fallThrough)

/-! ### Fetch and run control -/

/-- Whether `ip` is at the end of the code or beyond (R57, R82). -/
def State.atEnd (s : State) : Bool := decide (s.params.codeLen ≤ s.ip)

/-- The instruction at `ip` with its width, or the decoder's error (R77, R82). -/
def State.fetch (s : State) : Except DecodeError (Instr × Nat) := decode s.params.code s.ip

/-- The host's `run` request: Idle becomes Running; in every other run state nothing changes
(R241, R242, R243). -/
def State.runRequest (s : State) : State :=
  match s.rs with
  | .idle => { s with rs := .running }
  | .running | .halted | .faulted _ => s

/-- Code with `bytes` standing at offset `off`, zeros filling a gap before it. -/
def placeBytes (code : List Byte) (off : Nat) (bytes : List Byte) : List Byte :=
  (code ++ List.replicate (off - code.length) 0).take off ++ bytes ++
    code.drop (off + bytes.length)

end Sys2Proof.Machine
end

