-- ==== Sys2Proof/Machine/AluInstr.lean ====
section
/-! DEFINITION. ADD, SUB, MUL, DIV, AND, OR, XOR, SHR, SHL (44_alu_ops.md R170 to R179): every result is pushed,
no register and no flag is written (R170). -/

namespace Sys2Proof.Machine

/-- ADD r1, r2 (R171). -/
def execAdd (r1 r2 : RegIndex) (s : State) : Host.Outcome State Fault Refusal :=
  s.finish (Instr.add r1 r2).width (s.alu2 aluAdd r1 r2)

/-- SUB r1, r2: `x[r1] - x[r2]` (R172). -/
def execSub (r1 r2 : RegIndex) (s : State) : Host.Outcome State Fault Refusal :=
  s.finish (Instr.sub r1 r2).width (s.alu2 aluSub r1 r2)

/-- MUL r1, r2 (R173). -/
def execMul (r1 r2 : RegIndex) (s : State) : Host.Outcome State Fault Refusal :=
  s.finish (Instr.mul r1 r2).width (s.alu2 aluMul r1 r2)

/-- DIV r1, r2: `x[r1] / x[r2]` (R174). -/
def execDiv (r1 r2 : RegIndex) (s : State) : Host.Outcome State Fault Refusal :=
  s.finish (Instr.div r1 r2).width (s.alu2 aluDiv r1 r2)

/-- AND r1, r2 (R175). -/
def execAnd (r1 r2 : RegIndex) (s : State) : Host.Outcome State Fault Refusal :=
  s.finish (Instr.and r1 r2).width (s.alu2 aluAnd r1 r2)

/-- OR r1, r2 (R176). -/
def execOr (r1 r2 : RegIndex) (s : State) : Host.Outcome State Fault Refusal :=
  s.finish (Instr.or r1 r2).width (s.alu2 aluOr r1 r2)

/-- XOR r1, r2 (R177). -/
def execXor (r1 r2 : RegIndex) (s : State) : Host.Outcome State Fault Refusal :=
  s.finish (Instr.xor r1 r2).width (s.alu2 aluXor r1 r2)

/-- SHR r, imm (R178). -/
def execShr (r : RegIndex) (imm : Value) (s : State) : Host.Outcome State Fault Refusal :=
  s.finish (Instr.shr r imm).width (s.aluImm aluShr r imm)

/-- SHL r, imm (R179). -/
def execShl (r : RegIndex) (imm : Value) (s : State) : Host.Outcome State Fault Refusal :=
  s.finish (Instr.shl r imm).width (s.aluImm aluShl r imm)

end Sys2Proof.Machine
end

