-- ==== Sys2Proof/Machine/Branch.lean ====
section
/-! DEFINITION. CMP and the jumps JMP, JE, JNE, JG, JL (42_compare_branch.md R150 to R157). -/

namespace Sys2Proof.Machine

/-- CMP r1, r2: both flags, or neither on an error (R151). -/
def execCmp (r1 r2 : RegIndex) (s : State) : Host.Outcome State Fault Refusal :=
  s.finish (Instr.cmp r1 r2).width do
    let a ← s.readOperand r1
    let b ← s.readOperand r2
    let (eq, gt) ← raising (cmpFlags a b)
    return (s.setFlags eq gt, .fallThrough)

/-- JMP r (R152). -/
def execJmp (r : RegIndex) (s : State) : Host.Outcome State Fault Refusal :=
  s.finish (Instr.jmp r).width (s.jumpIf true r)

/-- JE r: taken iff `eq` (R153). -/
def execJe (r : RegIndex) (s : State) : Host.Outcome State Fault Refusal :=
  s.finish (Instr.je r).width (s.jumpIf s.flagEq r)

/-- JNE r: taken iff not `eq` (R154). -/
def execJne (r : RegIndex) (s : State) : Host.Outcome State Fault Refusal :=
  s.finish (Instr.jne r).width (s.jumpIf (!s.flagEq) r)

/-- JG r: taken iff `gt` (R155). -/
def execJg (r : RegIndex) (s : State) : Host.Outcome State Fault Refusal :=
  s.finish (Instr.jg r).width (s.jumpIf s.flagGt r)

/-- JL r: taken iff neither `gt` nor `eq` (R156, C3). -/
def execJl (r : RegIndex) (s : State) : Host.Outcome State Fault Refusal :=
  s.finish (Instr.jl r).width (s.jumpIf (!s.flagGt && !s.flagEq) r)

end Sys2Proof.Machine
end

