-- ==== Sys2Proof/Machine/CallReturn.lean ====
section
/-! DEFINITION. CALL and RET (46_call_return.md R190 to R192). -/

namespace Sys2Proof.Machine

/-- CALL r: the target is checked, then `ip + w` is pushed as a u64, then the jump is taken (R190, D19). -/
def execCall (r : RegIndex) (s : State) : Host.Outcome State Fault Refusal :=
  s.finish (Instr.call r).width do
    let v ← s.readOperand r
    let t ← raising (jumpTarget s.params.codeLen v)
    let u ← s.push (Value.ofNat .u64 (s.ip + (Instr.call r).width))
    return (u, .jump t)

/-- RET: the top is checked as a target before it is popped (R191, D20). -/
def execRet (s : State) : Host.Outcome State Fault Refusal :=
  s.finish Instr.ret.width do
    let v ← s.top
    let t ← raising (jumpTarget s.params.codeLen v)
    return (s.dropTop, .jump t)

end Sys2Proof.Machine
end

