-- ==== Sys2Proof/Machine/HeapAccess.lean ====
section
/-! DEFINITION. VSTORE, VLOAD, VSTORER, VLOADR (43_heap_access.md R160 to R163). -/

namespace Sys2Proof.Machine

/-- VSTORE addr, imm (R160). -/
def execVstore (a : HeapAddr) (imm : Value) (s : State) : Host.Outcome State Fault Refusal :=
  s.finish (Instr.vstore a imm).width do
    let t ← s.memWrite a imm
    return (t, .fallThrough)

/-- VLOAD addr: the cell is pushed (R161). -/
def execVload (a : HeapAddr) (s : State) : Host.Outcome State Fault Refusal :=
  s.finish (Instr.vload a).width do
    let v ← s.memRead a
    let t ← s.push v
    return (t, .fallThrough)

/-- VSTORER addr, r: the register index is checked before the address (R162, R212). -/
def execVstorer (a : HeapAddr) (r : RegIndex) (s : State) : Host.Outcome State Fault Refusal :=
  s.finish (Instr.vstorer a r).width do
    let v ← s.readOperand r
    let t ← s.memWrite a v
    return (t, .fallThrough)

/-- VLOADR r, addr (R163). -/
def execVloadr (r : RegIndex) (a : HeapAddr) (s : State) : Host.Outcome State Fault Refusal :=
  s.finish (Instr.vloadr r a).width do
    let i ← raising (regIndex r)
    let v ← s.memRead a
    return (s.writeReg i v, .fallThrough)

end Sys2Proof.Machine
end

