-- ==== Sys2Proof/Machine/Moves.lean ====
section
/-! DEFINITION. NOP, MOV, MOVR (41_register_moves.md R140 to R142). -/

namespace Sys2Proof.Machine

/-- NOP (R140). -/
def execNop (s : State) : Host.Outcome State Fault Refusal :=
  s.finish Instr.nop.width (.ok (s, .fallThrough))

/-- MOV r, imm (R141). -/
def execMov (r : RegIndex) (imm : Value) (s : State) : Host.Outcome State Fault Refusal :=
  s.finish (Instr.mov r imm).width do
    let i ← raising (regIndex r)
    return (s.writeReg i imm, .fallThrough)

/-- MOVR r1, r2: the destination index is checked first (R142, R212). -/
def execMovr (r1 r2 : RegIndex) (s : State) : Host.Outcome State Fault Refusal :=
  s.finish (Instr.movr r1 r2).width do
    let i ← raising (regIndex r1)
    let v ← s.readOperand r2
    return (s.writeReg i v, .fallThrough)

end Sys2Proof.Machine
end

