-- ==== Sys2Proof/Machine/Output.lean ====
section
/-! DEFINITION. PRINTR, PRINTV, HALT (47_output_halt.md R200 to R203). The item emitted is the tagged value; its
text is the host's (R203). -/

namespace Sys2Proof.Machine

/-- PRINTR r (R200). -/
def execPrintr (r : RegIndex) (s : State) : Host.Outcome State Fault Refusal :=
  s.finish (Instr.printr r).width do
    let v ← s.readOperand r
    return (s.emit v, .fallThrough)

/-- PRINTV addr (R201). -/
def execPrintv (a : HeapAddr) (s : State) : Host.Outcome State Fault Refusal :=
  s.finish (Instr.printv a).width do
    let v ← s.memRead a
    return (s.emit v, .fallThrough)

/-- HALT (R202). -/
def execHalt (s : State) : Host.Outcome State Fault Refusal :=
  s.finish Instr.halt.width (.ok (s, .halt))

end Sys2Proof.Machine
end

