-- ==== Sys2Proof/Machine/StackInstr.lean ====
section
/-! DEFINITION. VPUSH, VPUSHR, VPOP (45_stack_ops.md R180 to R182). -/

namespace Sys2Proof.Machine

/-- VPUSH imm (R180). -/
def execVpush (imm : Value) (s : State) : Host.Outcome State Fault Refusal :=
  s.finish (Instr.vpush imm).width do
    let t ← s.push imm
    return (t, .fallThrough)

/-- VPUSHR r (R181). -/
def execVpushr (r : RegIndex) (s : State) : Host.Outcome State Fault Refusal :=
  s.finish (Instr.vpushr r).width do
    let v ← s.readOperand r
    let t ← s.push v
    return (t, .fallThrough)

/-- VPOP r: the register index is checked before the stack (R182, R212). -/
def execVpop (r : RegIndex) (s : State) : Host.Outcome State Fault Refusal :=
  s.finish (Instr.vpop r).width do
    let i ← raising (regIndex r)
    let v ← s.top
    return (s.dropTop.writeReg i v, .fallThrough)

end Sys2Proof.Machine
end

