-- ==== Sys2Proof/Machine/Dispatch.lean ====
section
/-! DEFINITION. The dispatcher: each opcode's meaning (30_encoding.md R75, R81). -/

namespace Sys2Proof.Machine

def exec (i : Instr) (s : State) : Host.Outcome State Fault Refusal :=
  match i with
  | .nop => Sys2Proof.Machine.execNop s
  | .mov r imm => Sys2Proof.Machine.execMov r imm s
  | .movr r1 r2 => Sys2Proof.Machine.execMovr r1 r2 s
  | .jmp r => Sys2Proof.Machine.execJmp r s
  | .je r => Sys2Proof.Machine.execJe r s
  | .jne r => Sys2Proof.Machine.execJne r s
  | .cmp r1 r2 => Sys2Proof.Machine.execCmp r1 r2 s
  | .printr r => Sys2Proof.Machine.execPrintr r s
  | .jl r => Sys2Proof.Machine.execJl r s
  | .vstore a imm => Sys2Proof.Machine.execVstore a imm s
  | .vload a => Sys2Proof.Machine.execVload a s
  | .vstorer a r => Sys2Proof.Machine.execVstorer a r s
  | .vloadr r a => Sys2Proof.Machine.execVloadr r a s
  | .add r1 r2 => Sys2Proof.Machine.execAdd r1 r2 s
  | .sub r1 r2 => Sys2Proof.Machine.execSub r1 r2 s
  | .mul r1 r2 => Sys2Proof.Machine.execMul r1 r2 s
  | .div r1 r2 => Sys2Proof.Machine.execDiv r1 r2 s
  | .and r1 r2 => Sys2Proof.Machine.execAnd r1 r2 s
  | .or r1 r2 => Sys2Proof.Machine.execOr r1 r2 s
  | .xor r1 r2 => Sys2Proof.Machine.execXor r1 r2 s
  | .shr r imm => Sys2Proof.Machine.execShr r imm s
  | .shl r imm => Sys2Proof.Machine.execShl r imm s
  | .halt => Sys2Proof.Machine.execHalt s
  | .jg r => Sys2Proof.Machine.execJg r s
  | .vpush imm => Sys2Proof.Machine.execVpush imm s
  | .vpushr r => Sys2Proof.Machine.execVpushr r s
  | .vpop r => Sys2Proof.Machine.execVpop r s
  | .call r => Sys2Proof.Machine.execCall r s
  | .ret => Sys2Proof.Machine.execRet s
  | .printv a => Sys2Proof.Machine.execPrintv a s

end Sys2Proof.Machine
end

