-- ==== Sys2Proof/Machine/Step.lean ====
section
/-! DEFINITION. One step of the machine: the sequencer step while Running (30_encoding.md R82), the host's `run`
request in every other run state (70_reset_and_hazards.md R241 to R243; log 4). -/

namespace Sys2Proof.Machine

/-- The sequencer step of R82, taken only while Running. -/
def sequencerStep (s : State) : Host.Outcome State Fault Refusal :=
  if s.atEnd then .next s.halt
  else
    match s.fetch with
    | .error e => s.raise (.decode e)
    | .ok (i, _) => exec i s

/-- One step. Running: the sequencer step. Idle: the host requests `run` and the state becomes Running.
Halted or Faulted: the host requests `run` again, which changes nothing (log 4). -/
def step (s : State) : Host.Outcome State Fault Refusal :=
  match s.rs with
  | .running => sequencerStep s
  | .idle | .halted | .faulted _ => .next s.runRequest

/-- `s` as if constructed with the given instruction standing at its `ip` and then requested to run:
the code buffer gets the instruction's bytes, the run state becomes Running (log 5). -/
def State.withFetchWord (s : State) (nbits w : Nat) : State :=
  { s with
    params := { s.params with code := placeBytes s.params.code s.ip (tableBytes nbits w) }
    rs := .running }

end Sys2Proof.Machine
end

