-- ==== Sys2Proof/Safety.lean ====
section
/-! DEFINITION. The terms in which claims are stated: raising an error, terminal states, the invariant of every
constructed instance, which instruction touches what, and the IEEE 754 reading of a pattern as a number. -/

namespace Sys2Proof.Machine

/-- Instruction `i` raises `e` in `s`: the fault is recorded and nothing else changes (R213, R214). -/
def raises (i : Instr) (s : State) (e : ExecutionError) : Prop :=
  exec i s = .next { s with rs := .faulted (.execute e) }

/-- Halted or Faulted (R216). -/
def RunState.terminal : RunState → Bool
  | .halted | .faulted _ => true
  | .idle | .running => false

/-- A safe run so far: not Faulted (R216). -/
def RunState.safe : RunState → Bool
  | .faulted _ => false
  | .idle | .running | .halted => true

/-- What holds of every state an instance can be in: code within its bound (R5), `ip` within the code or at
its end (R31), never both flags (R34), the heap in canonical form and within `heap_size` (R30), the stack
within its capacity (R29). -/
structure State.Inv (s : State) : Prop where
  codeFits : s.params.codeLen < 2 ^ 64
  ipInCode : s.ip ≤ s.params.codeLen
  flagsExclusive : ¬(s.flagEq = true ∧ s.flagGt = true)
  heapCanonical : Heap.wf s.params.initValue s.heap = true
  heapInRange : ∀ c ∈ s.heap, c.1 < s.params.heapSize
  stackFits : ∀ c, s.params.stackCapacity = some c → s.stack.length ≤ c

end Sys2Proof.Machine

namespace Sys2Proof

/-- The register operands of an instruction, left to right (R26, R27). -/
def Instr.regOperands : Instr → List RegIndex
  | .nop | .halt | .ret | .vpush _ | .vload _ | .printv _ | .vstore _ _ => []
  | .mov r _ | .jmp r | .je r | .jne r | .jg r | .jl r | .printr r | .vpushr r | .vpop r | .call r
  | .vstorer _ r | .vloadr r _ | .shr r _ | .shl r _ => [r]
  | .movr r1 r2 | .cmp r1 r2 | .add r1 r2 | .sub r1 r2 | .mul r1 r2 | .div r1 r2 | .and r1 r2
  | .or r1 r2 | .xor r1 r2 => [r1, r2]

/-- The destination register of the four instructions that write one (R26, C6). -/
def Instr.destReg? : Instr → Option RegIndex
  | .mov r _ | .movr r _ | .vloadr r _ | .vpop r => some r
  | .nop | .halt | .ret | .vpush _ | .vload _ | .printv _ | .vstore _ _ | .jmp _ | .je _ | .jne _
  | .jg _ | .jl _ | .printr _ | .vpushr _ | .call _ | .vstorer _ _ | .shr _ _ | .shl _ _
  | .cmp _ _ | .add _ _ | .sub _ _ | .mul _ _ | .div _ _ | .and _ _ | .or _ _ | .xor _ _ => none

/-- The ALU instructions: they push a result (R170). -/
def Instr.isAlu : Instr → Bool
  | .add _ _ | .sub _ _ | .mul _ _ | .div _ _ | .and _ _ | .or _ _ | .xor _ _ | .shr _ _
  | .shl _ _ => true
  | .nop | .halt | .ret | .vpush _ | .vload _ | .printv _ | .vstore _ _ | .jmp _ | .je _ | .jne _
  | .jg _ | .jl _ | .printr _ | .vpushr _ | .call _ | .vstorer _ _ | .cmp _ _ | .mov _ _
  | .movr _ _ | .vloadr _ _ | .vpop _ => false

/-- The instructions that push (R29). -/
def Instr.pushes (i : Instr) : Bool :=
  i.isAlu ||
    match i with
    | .vload _ | .vpush _ | .vpushr _ | .call _ => true
    | _ => false

/-- The instructions that pop (R29). -/
def Instr.pops : Instr → Bool
  | .vpop _ | .ret => true
  | _ => false

/-- The heap address an instruction stores to, as a cell number (R160, R162). -/
def Instr.storeCell? : Instr → Option Nat
  | .vstore a _ | .vstorer a _ => some a.toNat
  | _ => none

/-- The instructions that can set `ip` other than by falling through (R32). -/
def Instr.transfersControl : Instr → Bool
  | .jmp _ | .je _ | .jne _ | .jg _ | .jl _ | .call _ | .ret => true
  | _ => false

/-- The execution errors R211 lists for an instruction. -/
def Instr.listedErrors : Instr → List Machine.ExecutionError
  | .nop | .vpush _ | .halt => []
  | .mov _ _ | .movr _ _ | .vpushr _ | .printr _ => [.invalidRegister]
  | .cmp _ _ => [.invalidRegister, .typeMismatch]
  | .jmp _ | .je _ | .jne _ | .jg _ | .jl _ | .call _ => [.invalidRegister, .invalidJumpTarget]
  | .vstorer _ _ | .vloadr _ _ => [.invalidRegister, .outOfBounds]
  | .vstore _ _ | .vload _ | .printv _ => [.outOfBounds]
  | .add _ _ | .sub _ _ | .mul _ _ | .and _ _ | .or _ _ | .xor _ _ =>
    [.invalidRegister, .typeMismatch]
  | .div _ _ | .shr _ _ | .shl _ _ => [.invalidRegister, .typeMismatch, .divisionByZero]
  | .vpop _ => [.invalidRegister, .stackUnderflow]
  | .ret => [.stackUnderflow, .invalidJumpTarget]

end Sys2Proof

namespace Sys2Proof.Machine.FloatFormat

/-! The IEEE 754 reading of a pattern as a rational number, written from the field layout and not from the
arithmetic of Machine/Float.lean. -/

/-- The sign bit of a pattern. -/
def signOf (f : FloatFormat) (p : Nat) : Bool := decide (p / 2 ^ (f.fracBits + f.expBits) % 2 = 1)

/-- The exponent field. -/
def expField (f : FloatFormat) (p : Nat) : Nat := p / 2 ^ f.fracBits % 2 ^ f.expBits

/-- The fraction field. -/
def fracField (f : FloatFormat) (p : Nat) : Nat := p % 2 ^ f.fracBits

/-- The exponent bias. -/
def bias (f : FloatFormat) : ℤ := 2 ^ (f.expBits - 1) - 1

/-- A finite pattern: the exponent field is not all ones. -/
def Finite (f : FloatFormat) (p : Nat) : Prop := f.expField p ≠ 2 ^ f.expBits - 1

/-- An infinity: the exponent field all ones, the fraction zero. -/
def Infinite (f : FloatFormat) (p : Nat) : Prop :=
  f.expField p = 2 ^ f.expBits - 1 ∧ f.fracField p = 0

/-- A NaN: the exponent field all ones, the fraction not zero (R121). -/
def NotANumber (f : FloatFormat) (p : Nat) : Prop :=
  f.expField p = 2 ^ f.expBits - 1 ∧ f.fracField p ≠ 0

/-- A zero of either sign. -/
def Zero (f : FloatFormat) (p : Nat) : Prop := f.expField p = 0 ∧ f.fracField p = 0

/-- The number a finite pattern stands for. -/
def toRat (f : FloatFormat) (p : Nat) : ℚ :=
  let frac : ℚ := (f.fracField p : ℚ) / 2 ^ f.fracBits
  let mag : ℚ :=
    if f.expField p = 0 then frac * 2 ^ (1 - f.bias)
    else (1 + frac) * 2 ^ ((f.expField p : ℤ) - f.bias)
  if f.signOf p then -mag else mag

/-- The least magnitude that rounds to an infinity: half a unit in the last place above the greatest finite
number. -/
def overflowBound (f : FloatFormat) : ℚ := (2 - 1 / 2 ^ (f.fracBits + 1)) * 2 ^ f.bias

/-- `p` is `x` correctly rounded to nearest, ties to even (R120): an infinity from the bound up; below it a
finite pattern at least as near as any other, even where another is as near; with the sign of `x` where
`x` is not zero. -/
structure RoundsTo (f : FloatFormat) (x : ℚ) (p : Nat) : Prop where
  overflow : f.overflowBound ≤ |x| → f.Infinite p
  finite : |x| < f.overflowBound → f.Finite p
  nearest : |x| < f.overflowBound → ∀ q, f.Finite q → |f.toRat p - x| ≤ |f.toRat q - x|
  tiesToEven : |x| < f.overflowBound → ∀ q, f.Finite q → |f.toRat q - x| = |f.toRat p - x| →
    f.toRat q ≠ f.toRat p → p % 2 = 0
  negative : x < 0 → f.signOf p = true
  positive : 0 < x → f.signOf p = false

end Sys2Proof.Machine.FloatFormat
end

