-- ==== Sys2Proof/Certificates/Slice0/Obligations.lean ====
section
/-! DEFINITION. The statements for the provers. `Sys2Proof.Claims` holds the words several of them share. -/

namespace Sys2Proof.Claims

open Sys2Proof Sys2Proof.Machine

/-- The four bytes of a heap-address field, least significant first (R71). -/
def addrBytes (a : HeapAddr) : List Byte :=
  [a.extractLsb' 0 8, a.extractLsb' 8 8, a.extractLsb' 16 8, a.extractLsb' 24 8]

/-- The kind-tag byte of R72's table; the empty kind has none. -/
def kindTag : Kind → Option Byte
  | .u8 => some 0
  | .i8 => some 1
  | .u16 => some 2
  | .i16 => some 3
  | .u32 => some 4
  | .i32 => some 5
  | .u64 => some 6
  | .i64 => some 7
  | .f32 => some 8
  | .f64 => some 9
  | .none => none

/-- The bytes of a tagged immediate: its tag, then byte `j` of the payload at offset `j` (R72, R73). -/
def IsImmBytes (v : Value) (bs : List Byte) : Prop :=
  ∃ t, kindTag v.kind = some t ∧
    bs = t :: (List.range v.kind.bytes).map fun j => v.bits.extractLsb' (8 * j) 8

/-- The encodings of R74 and R75, row by row. -/
def FormatTable : Prop :=
  (encode .nop = [0x00] ∧ encode .halt = [0x16] ∧ encode .ret = [0x1C]) ∧
  (∀ r, encode (.jmp r) = [0x03, r] ∧ encode (.je r) = [0x04, r] ∧ encode (.jne r) = [0x05, r] ∧
    encode (.printr r) = [0x07, r] ∧ encode (.jl r) = [0x08, r] ∧ encode (.jg r) = [0x17, r] ∧
    encode (.vpushr r) = [0x19, r] ∧ encode (.vpop r) = [0x1A, r] ∧ encode (.call r) = [0x1B, r]) ∧
  (∀ r1 r2, encode (.movr r1 r2) = [0x02, r1, r2] ∧ encode (.cmp r1 r2) = [0x06, r1, r2] ∧
    encode (.add r1 r2) = [0x0D, r1, r2] ∧ encode (.sub r1 r2) = [0x0E, r1, r2] ∧
    encode (.mul r1 r2) = [0x0F, r1, r2] ∧ encode (.div r1 r2) = [0x10, r1, r2] ∧
    encode (.and r1 r2) = [0x11, r1, r2] ∧ encode (.or r1 r2) = [0x12, r1, r2] ∧
    encode (.xor r1 r2) = [0x13, r1, r2]) ∧
  (∀ a, encode (.vload a) = 0x0A :: addrBytes a ∧ encode (.printv a) = 0x1D :: addrBytes a) ∧
  (∀ a r, encode (.vstorer a r) = 0x0B :: addrBytes a ++ [r] ∧
    encode (.vloadr r a) = 0x0C :: r :: addrBytes a) ∧
  (∀ v bs, IsImmBytes v bs →
    (∀ r, encode (.mov r v) = 0x01 :: r :: bs ∧ encode (.shr r v) = 0x14 :: r :: bs ∧
      encode (.shl r v) = 0x15 :: r :: bs) ∧
    (∀ a, encode (.vstore a v) = 0x09 :: addrBytes a ++ bs) ∧
    encode (.vpush v) = 0x18 :: bs)

/-- What R150 and one of R152 to R156 say of a jump with the given opcode byte and condition. -/
def JumpLaw (mk : RegIndex → Instr) (opcode : Byte) (taken : State → Bool) : Prop :=
  ∀ (r : RegIndex) (s : State),
    encode (mk r) = [opcode, r] ∧
    (8 ≤ r.toNat → raises (mk r) s .invalidRegister) ∧
    ∀ h : r.toNat < 8,
      (taken s = false → exec (mk r) s = .next { s with ip := s.ip + 2 }) ∧
      (taken s = true → ∀ n : Nat, (s.reg ⟨r.toNat, h⟩).kind.isInteger = true →
        val (s.reg ⟨r.toNat, h⟩) = n → n ≤ s.params.codeLen →
        exec (mk r) s = .next { s with ip := n }) ∧
      (taken s = true →
        ¬((s.reg ⟨r.toNat, h⟩).kind.isInteger = true ∧ 0 ≤ val (s.reg ⟨r.toNat, h⟩) ∧
          val (s.reg ⟨r.toNat, h⟩) ≤ s.params.codeLen) →
        raises (mk r) s .invalidJumpTarget)

/-- A two-register instruction pushes, on integer operands of one kind, the value of that kind whose
pattern is `f` of the two operands modulo `2^N`. -/
def PushesWrapped (mk : RegIndex → RegIndex → Instr) (f : Int → Int → Int) : Prop :=
  ∀ (r1 r2 : RegIndex) (s : State) (h1 : r1.toNat < 8) (h2 : r2.toNat < 8),
    (s.reg ⟨r1.toNat, h1⟩).kind.isInteger = true →
    (s.reg ⟨r1.toNat, h1⟩).kind = (s.reg ⟨r2.toNat, h2⟩).kind → s.stackIsFull = false →
    ∃ v : Value, v.kind = (s.reg ⟨r1.toNat, h1⟩).kind ∧
      (uval v : Int) =
        f (val (s.reg ⟨r1.toNat, h1⟩)) (val (s.reg ⟨r2.toNat, h2⟩)) % 2 ^ v.kind.width ∧
      exec (mk r1 r2) s = .next { s with stack := v :: s.stack, ip := s.ip + 3 }

/-- A two-register instruction pushes, on integer operands of one kind, the value of that kind each of
whose bits is `f` of the operands' bits. -/
def PushesBitwise (mk : RegIndex → RegIndex → Instr) (f : Bool → Bool → Bool) : Prop :=
  ∀ (r1 r2 : RegIndex) (s : State) (h1 : r1.toNat < 8) (h2 : r2.toNat < 8),
    (s.reg ⟨r1.toNat, h1⟩).kind.isInteger = true →
    (s.reg ⟨r1.toNat, h1⟩).kind = (s.reg ⟨r2.toNat, h2⟩).kind → s.stackIsFull = false →
    ∃ v : Value, v.kind = (s.reg ⟨r1.toNat, h1⟩).kind ∧
      (∀ j < v.kind.width, v.bits.getLsbD j =
        f ((s.reg ⟨r1.toNat, h1⟩).bits.getLsbD j) ((s.reg ⟨r2.toNat, h2⟩).bits.getLsbD j)) ∧
      exec (mk r1 r2) s = .next { s with stack := v :: s.stack, ip := s.ip + 3 }

/-- A two-register instruction raises TypeMismatch exactly when its operands' kinds differ or lie outside
`dom`. -/
def MismatchOutside (mk : RegIndex → RegIndex → Instr) (dom : Kind → Bool) : Prop :=
  ∀ (r1 r2 : RegIndex) (s : State) (h1 : r1.toNat < 8) (h2 : r2.toNat < 8),
    raises (mk r1 r2) s .typeMismatch ↔
      (s.reg ⟨r1.toNat, h1⟩).kind ≠ (s.reg ⟨r2.toNat, h2⟩).kind ∨
        dom (s.reg ⟨r1.toNat, h1⟩).kind = false

/-- As `MismatchOutside`, for a register and an immediate. -/
def MismatchOutsideImm (mk : RegIndex → Value → Instr) (dom : Kind → Bool) : Prop :=
  ∀ (r : RegIndex) (imm : Value) (s : State) (h : r.toNat < 8),
    raises (mk r imm) s .typeMismatch ↔
      (s.reg ⟨r.toNat, h⟩).kind ≠ imm.kind ∨ dom (s.reg ⟨r.toNat, h⟩).kind = false

/-- The stack is bounded and has reached its bound (R29). -/
def AtCapacity (s : State) : Prop :=
  ∃ c, s.params.stackCapacity = some c ∧ c ≤ s.stack.length

/-- The same state in an instance built with an unbounded stack (R28, R29). -/
def unbounded (s : State) : State :=
  { s with params := { s.params with stackCapacity := none } }

/-- A two-register instruction has no step on operands that are `good` for it when the stack is at its
capacity. -/
def StuckAtCapacity (mk : RegIndex → RegIndex → Instr) (good : Value → Value → Prop) : Prop :=
  ∀ (r1 r2 : RegIndex) (s : State) (h1 : r1.toNat < 8) (h2 : r2.toNat < 8),
    good (s.reg ⟨r1.toNat, h1⟩) (s.reg ⟨r2.toNat, h2⟩) → AtCapacity s →
    exec (mk r1 r2) s = .fault .stackFull

/-- As `StuckAtCapacity`, for a register and an immediate. -/
def StuckAtCapacityImm (mk : RegIndex → Value → Instr) (good : Value → Value → Prop) : Prop :=
  ∀ (r : RegIndex) (imm : Value) (s : State) (h : r.toNat < 8),
    good (s.reg ⟨r.toNat, h⟩) imm → AtCapacity s → exec (mk r imm) s = .fault .stackFull

/-- The format of each float kind (R23). -/
def FormatOf (k : Kind) (f : FloatFormat) : Prop :=
  (k = .f32 ∧ f = ⟨23, 8⟩) ∨ (k = .f64 ∧ f = ⟨52, 11⟩)

/-- Registers `r1` and `r2` hold floats of one kind, of format `f`, with the patterns `p` and `q`, and
the stack has room. -/
structure FloatOperands (s : State) (r1 r2 : RegIndex) (k : Kind) (f : FloatFormat) (p q : Nat) :
    Prop where
  format : FormatOf k f
  lt1 : r1.toNat < 8
  lt2 : r2.toNat < 8
  kind1 : (s.reg ⟨r1.toNat, lt1⟩).kind = k
  kind2 : (s.reg ⟨r2.toNat, lt2⟩).kind = k
  bits1 : uval (s.reg ⟨r1.toNat, lt1⟩) = p
  bits2 : uval (s.reg ⟨r2.toNat, lt2⟩) = q
  room : s.stackIsFull = false

/-- The instruction completes in `s` by pushing a value of kind `k` whose pattern has property `P`, and
changes nothing else but `ip`. -/
def PushesSome (i : Instr) (s : State) (k : Kind) (P : Nat → Prop) : Prop :=
  ∃ v : Value, v.kind = k ∧ P (uval v) ∧
    exec i s = .next { s with stack := v :: s.stack, ip := s.ip + 3 }

/-- The instruction completes in `s` by pushing the next NaN of kind `k` to be drawn, which the draw
counter tells, and counts it; it changes nothing else but `ip` (log 6). -/
def PushesDrawnNaN (i : Instr) (s : State) (k : Kind) : Prop :=
  exec i s = .next
    { s with
      stack := drawnNaN k s.nanDraws :: s.stack
      ip := s.ip + 3
      nanDraws := s.nanDraws + 1 }

/-- A float instruction on finite operands (the second not zero if `nz`) pushes the exact result `op`
rounded, and an exact zero result has the sign `zeroSign` of the operands' signs. -/
def FloatOpRounds (mk : RegIndex → RegIndex → Instr) (op : ℚ → ℚ → ℚ) (nz : Bool)
    (zeroSign : Bool → Bool → Bool) : Prop :=
  ∀ (r1 r2 : RegIndex) (s : State) (k : Kind) (f : FloatFormat) (p q : Nat),
    FloatOperands s r1 r2 k f p q → f.Finite p → f.Finite q → (nz = true → ¬f.Zero q) →
    PushesSome (mk r1 r2) s k fun res =>
      f.RoundsTo (op (f.toRat p) (f.toRat q)) res ∧
      (op (f.toRat p) (f.toRat q) = 0 → f.signOf res = zeroSign (f.signOf p) (f.signOf q))

end Sys2Proof.Claims

open Sys2Proof Sys2Proof.Machine Sys2Proof.Claims

/-! ### Encoding (30_encoding.md) -/

/-- R80 (with R74's formats): `encode(i)` is the byte sequence of R74, and decoding it, whatever bytes
follow, gives `i` and its length back. -/
def Obligations.DecodeUndoesEncode : Prop :=
  FormatTable ∧
  ∀ (i : Instr) (rest : List Byte), i.wellFormed = true →
    decode (encode i ++ rest) 0 = .ok (i, (encode i).length)

/-- The converse: what the decoder accepts is the encoding of the instruction it gives. -/
def Obligations.DecodedBytesAreTheEncoding : Prop :=
  ∀ (bs : List Byte) (i : Instr) (w : Nat), decodeBytes bs = .ok (i, w) →
    i.wellFormed = true ∧ w = i.width ∧ w ≤ bs.length ∧ bs.take w = encode i

/-- An encoding cut short anywhere is a truncated instruction (R77). -/
def Obligations.CutEncodingIsTruncated : Prop :=
  ∀ (i : Instr) (n : Nat), i.wellFormed = true → n < (encode i).length →
    decodeBytes ((encode i).take n) = .error .truncatedInstruction

/-- R76: opcode bytes 30 to 255 and kind tags 10 to 255 are InvalidOpcode; register bytes and addresses
are never decode errors. -/
def Obligations.IllegalBytesAreInvalidOpcode : Prop :=
  (∀ (op : Byte) (rest : List Byte), 30 ≤ op.toNat →
    decodeBytes (op :: rest) = .error .invalidOpcode) ∧
  (∀ (t : Byte) (rest : List Byte), 10 ≤ t.toNat →
    (∀ r : Byte, decodeBytes (0x01 :: r :: t :: rest) = .error .invalidOpcode ∧
      decodeBytes (0x14 :: r :: t :: rest) = .error .invalidOpcode ∧
      decodeBytes (0x15 :: r :: t :: rest) = .error .invalidOpcode) ∧
    (∀ b0 b1 b2 b3 : Byte,
      decodeBytes (0x09 :: b0 :: b1 :: b2 :: b3 :: t :: rest) = .error .invalidOpcode) ∧
    decodeBytes (0x18 :: t :: rest) = .error .invalidOpcode) ∧
  (∀ (i : Instr) (rest : List Byte), i.wellFormed = true →
    ∃ w, decodeBytes (encode i ++ rest) = .ok (i, w))

/-- A few words written out from the vectors V1.7, V1.10 to V1.15 and the examples of R160, R163, R190. -/
def Obligations.SampleWordsDecode : Prop :=
  decodeBytes [0x01, 0x00, 0x02, 0x34, 0x12] = .ok (.mov 0 (Value.ofNat .u16 0x1234), 5) ∧
  decodeBytes [0x16] = .ok (.halt, 1) ∧
  decodeBytes [0x09, 0, 0, 0, 0, 6, 1, 2, 3, 4, 5, 6, 7, 8] =
    .ok (.vstore 0 (Value.ofNat .u64 0x0807060504030201), 14) ∧
  decodeBytes [0x02, 0x09, 0x00] = .ok (.movr 9 0, 3) ∧
  decodeBytes [0x1C, 0x99] = .ok (.ret, 1) ∧
  decodeBytes [0x18, 9, 0, 0, 0, 0, 0, 0, 0xF0, 0x7F] =
    .ok (.vpush (Value.ofNat .f64 0x7FF0000000000000), 10) ∧
  decodeBytes [0x0B, 0x10, 0, 0, 0, 0x03] = .ok (.vstorer 16 3, 6) ∧
  decodeBytes [0x0C, 0x07, 0xFF, 0x03, 0, 0] = .ok (.vloadr 7 1023, 6) ∧
  decodeBytes [0x1B, 0x04] = .ok (.call 4, 2)

/-! ### The sequencer and run control (30_encoding.md, 70_reset_and_hazards.md) -/

/-- R82: the sequencer step while Running. -/
def Obligations.StepIsTheSequencerStep : Prop :=
  ∀ s : State, s.rs = .running →
    (s.params.codeLen ≤ s.ip → step s = .next { s with rs := .halted }) ∧
    (s.ip < s.params.codeLen →
      (∀ e, decode s.params.code s.ip = .error e →
        step s = .next { s with rs := .faulted (.decode e) }) ∧
      (∀ i w, decode s.params.code s.ip = .ok (i, w) → step s = exec i s ∧ w = i.width)) ∧
    (∀ (w : Nat) (t : State),
      s.finish w (.ok (t, .fallThrough)) = .next { t with ip := s.ip + w } ∧
      (∀ d, s.finish w (.ok (t, .jump d)) = .next { t with ip := d }) ∧
      s.finish w (.ok (t, .halt)) = .next { t with rs := .halted } ∧
      ∀ e, s.finish w (.error (.raise e)) = .next { s with rs := .faulted (.execute e) })

/-- R241 to R243: a `run` request starts an Idle instance and does nothing to any other. That a step of
the model outside Running is such a request is the model's own choice (log 4). -/
def Obligations.RunRequestsStartOnlyIdle : Prop :=
  ∀ s : State,
    (s.rs = .idle → s.runRequest = { s with rs := .running }) ∧
    (s.rs ≠ .idle → s.runRequest = s) ∧
    (s.rs ≠ .running → step s = .next s.runRequest)

/-- A Halted or Faulted instance never runs again, however many steps are asked for (R215, R243). -/
def Obligations.TerminalStateNeverChanges : Prop :=
  ∀ (n : Nat) (s : State), s.rs.terminal = true → core.run n s = .next s

/-- A jump to its own offset, once taken, repeats for ever (R84). -/
def Obligations.SelfJumpNeverEnds : Prop :=
  ∀ (s : State) (r : RegIndex) (h : r.toNat < 8), s.rs = .running → s.ip < s.params.codeLen →
    decode s.params.code s.ip = .ok (.jmp r, 2) →
    (s.reg ⟨r.toNat, h⟩).kind.isInteger = true → val (s.reg ⟨r.toNat, h⟩) = s.ip →
    ∀ n, core.run n s = .next s

/-- The invariant of every constructed instance is kept by every step, from every state that has it. A step
outside Running is the host's run request, by the model's choice (log 4). -/
def Obligations.StepKeepsInv : Prop :=
  ∀ s t : State, s.Inv → step s = .next t → t.Inv

/-- Construction, and reset, give a state with the invariant. -/
def Obligations.ConstructionMeetsInv : Prop :=
  (∀ p : Params, p.codeLen < 2 ^ 64 → (State.construct p).Inv) ∧ State.reset.Inv

/-- R41: what construction leaves. -/
def Obligations.ConstructionSetsDefaults : Prop :=
  ∀ (code : List Byte) (heapSize : Nat), code.length < 2 ^ 64 →
    ∃ s, State.new code heapSize = .ok s ∧ s.params.code = code ∧ s.params.heapSize = heapSize ∧
      (∀ i, s.reg i = Value.empty) ∧ s.stack = [] ∧ (∀ a, s.cell a = Value.empty) ∧ s.ip = 0 ∧
      s.flagEq = false ∧ s.flagGt = false ∧ s.rs = .idle ∧ s.out = []

/-! ### Rules about the whole machine -/

/-- R27: every register-index byte of 8 to 255 decodes, and raises InvalidRegister when the instruction
executes, whichever instruction it is. -/
def Obligations.BadRegisterIndexAlwaysRaises : Prop :=
  ∀ (i : Instr) (r : RegIndex), r ∈ i.regOperands → 8 ≤ r.toNat →
    (i.wellFormed = true → ∀ rest, ∃ w, decodeBytes (encode i ++ rest) = .ok (i, w)) ∧
    ∀ s : State, raises i s .invalidRegister

/-- The errors of R211 have the codes of its table, and a running instruction raises only errors its
column lists. -/
def Obligations.OnlyListedErrorsAreRaised : Prop :=
  ([Error.decode .invalidOpcode, .decode .truncatedInstruction, .execute .invalidRegister,
    .execute .outOfBounds, .execute .stackUnderflow, .execute .typeMismatch,
    .execute .divisionByZero, .execute .invalidJumpTarget].map Error.code =
      [1, 2, 3, 4, 5, 6, 7, 8]) ∧
  ∀ (i : Instr) (s t : State) (e : Error), s.rs = .running → exec i s = .next t →
    t.rs = .faulted e → ∃ x, e = .execute x ∧ x ∈ i.listedErrors

/-- R213: a step that faults changes nothing but the run state. -/
def Obligations.FaultingStepChangesNothing : Prop :=
  ∀ (s t : State) (e : Error), s.rs = .running → step s = .next t → t.rs = .faulted e →
    t = { s with rs := .faulted e }

/-- Registers are written by MOV, MOVR, VLOADR and VPOP alone, and these write their destination alone
(R26). -/
def Obligations.OnlyTheDestinationRegisterChanges : Prop :=
  ∀ (i : Instr) (s t : State), exec i s = .next t → ∀ j : Fin 8,
    (∀ r, i.destReg? = some r → j.val ≠ r.toNat) → t.reg j = s.reg j

/-- R29: an instruction that completes without an error pushes one value if it is a push writer, pops one if
it is a reader, and else leaves the stack alone. On a stack at its capacity a push writer raises the errors
it raises with an unbounded stack, none besides, and has no step where it would raise none; nothing else is
ever without a step. -/
def Obligations.StackGrowsAndShrinksAsListed : Prop :=
  (∀ (i : Instr) (s t : State), exec i s = .next t →
    (∃ e, t = { s with rs := .faulted (.execute e) }) ∨
      (i.pushes = true ∧ ∃ v, t.stack = v :: s.stack) ∨
      (i.pops = true ∧ ∃ v, s.stack = v :: t.stack) ∨
      (i.pushes = false ∧ i.pops = false ∧ t.stack = s.stack)) ∧
  (∀ (i : Instr) (s : State), i.pushes = true → AtCapacity s →
    (∀ e, raises i s e ↔ raises i (unbounded s) e) ∧
    ((∀ e, ¬raises i (unbounded s) e) → exec i s = .fault .stackFull)) ∧
  (∀ (i : Instr) (s : State) (f : Fault), exec i s = .fault f →
    i.pushes = true ∧ f = .stackFull ∧ AtCapacity s)

/-- The heap is written by VSTORE and VSTORER alone, and these write the addressed cell alone; nothing
writes code or the other configuration (R36, R50). -/
def Obligations.OnlyTheStoredCellChanges : Prop :=
  ∀ (i : Instr) (s t : State), exec i s = .next t →
    t.params = s.params ∧ (i.storeCell? = none → t.heap = s.heap) ∧
      ∀ a : Nat, i.storeCell? ≠ some a → t.cell a = s.cell a

/-- The flags are written by CMP alone (R33). -/
def Obligations.OnlyCmpWritesFlags : Prop :=
  ∀ (i : Instr) (s t : State), exec i s = .next t → (∀ r1 r2, i ≠ .cmp r1 r2) →
    t.flagEq = s.flagEq ∧ t.flagGt = s.flagGt

/-- The output history is appended to, by PRINTR and PRINTV alone and by one item at most, and is never
read: two runs that differ in it alone go on alike (R37). A step outside Running is the host's run request, by the model's choice
(log 4). -/
def Obligations.OutputIsAppendedAndNeverRead : Prop :=
  (∀ s t : State, step s = .next t → ∃ added : List Value, t.out = s.out ++ added ∧
    ∀ before : List Value, step { s with out := before } = .next { t with out := before ++ added }) ∧
  (∀ (i : Instr) (s t : State), exec i s = .next t →
    t.out = s.out ∨ ∃ v, t.out = s.out ++ [v] ∧
      ((∃ r, i = .printr r) ∨ ∃ a, i = .printv a))

/-- No step changes the configuration, so what stands at any offset decodes alike after it (R36, R62). A step
outside Running is the host's run request, by the model's choice (log 4). -/
def Obligations.NoStepChangesTheCode : Prop :=
  ∀ s t : State, step s = .next t →
    t.params = s.params ∧ ∀ off, decode t.params.code off = decode s.params.code off

/-- An instruction that transfers no control falls through by its own width, or ends the run where it
stands (R31, R32, R83). -/
def Obligations.IpMovesByWidthUnlessTransferred : Prop :=
  ∀ (i : Instr) (s t : State), s.rs = .running → exec i s = .next t →
    (i.transfersControl = false → t.rs = .running → t.ip = s.ip + i.width) ∧
    (t.rs ≠ .running → t.ip = s.ip) ∧ t.rs ≠ .idle ∧ (t.rs = .halted → i = .halt)

/-- Nothing is refused; a state without a step is a Running one at a push, with the stack at its capacity;
and with the spec's unbounded stack every state has a next state (R210, R218, R247). For the Idle, Halted
and Faulted states, which the sequencer takes no step from, this rests on the model's own choice that their
step is the host's run request (log 4). -/
def Obligations.EveryStepAnswers : Prop :=
  ∀ s : State, (∀ x, step s ≠ .refused x) ∧
    (∀ f, step s = .fault f → s.rs = .running ∧ AtCapacity s ∧ f = .stackFull ∧
      ∃ i w, decode s.params.code s.ip = .ok (i, w) ∧ i.pushes = true) ∧
    (s.params.stackCapacity = none → ∃ t, step s = .next t)

/-! ### Values -/

/-- How an integer value is read: unsigned kinds as they stand, signed kinds in two's complement (R6, R22;
the latter is the spec's own inference, log 14). -/
def Obligations.IntegerReadings : Prop :=
  ∀ v : Value, (v.kind.isUnsigned = true → val v = uval v) ∧
    (v.kind.isSigned = true →
      val v = (uval v : Int) -
        2 ^ v.kind.width * (if v.bits.getLsbD (v.kind.width - 1) then 1 else 0))

/-! ### Register moves (41_register_moves.md) -/

/-- R140. -/
def Obligations.NopOnlyMovesOn : Prop :=
  encode .nop = [0x00] ∧ ∀ s : State, exec .nop s = .next { s with ip := s.ip + 1 }

/-- R141. -/
def Obligations.MovWritesTheImmediate : Prop :=
  ∀ (r : RegIndex) (imm : Value) (s : State),
    (∀ bs, IsImmBytes imm bs → encode (.mov r imm) = 0x01 :: r :: bs) ∧
    (8 ≤ r.toNat → raises (.mov r imm) s .invalidRegister) ∧
    ∀ h : r.toNat < 8, ∃ t, exec (.mov r imm) s = .next t ∧ t.reg ⟨r.toNat, h⟩ = imm ∧
      (∀ j : Fin 8, j.val ≠ r.toNat → t.reg j = s.reg j) ∧
      t = { s with regs := t.regs, ip := s.ip + (3 + imm.kind.bytes) }

/-- R142. -/
def Obligations.MovrCopiesARegister : Prop :=
  ∀ (r1 r2 : RegIndex) (s : State),
    encode (.movr r1 r2) = [0x02, r1, r2] ∧
    (8 ≤ r1.toNat ∨ 8 ≤ r2.toNat → raises (.movr r1 r2) s .invalidRegister) ∧
    ∀ (h1 : r1.toNat < 8) (h2 : r2.toNat < 8), ∃ t, exec (.movr r1 r2) s = .next t ∧
      t.reg ⟨r1.toNat, h1⟩ = s.reg ⟨r2.toNat, h2⟩ ∧
      (∀ j : Fin 8, j.val ≠ r1.toNat → t.reg j = s.reg j) ∧
      t = { s with regs := t.regs, ip := s.ip + 3 }

/-! ### Compare and branch (42_compare_branch.md) -/

/-- CMP on two integers of one kind writes both flags from the values and changes nothing else
(R114, R151). -/
def Obligations.CmpComparesIntegers : Prop :=
  ∀ (r1 r2 : RegIndex) (s : State) (h1 : r1.toNat < 8) (h2 : r2.toNat < 8),
    (s.reg ⟨r1.toNat, h1⟩).kind = (s.reg ⟨r2.toNat, h2⟩).kind →
    (s.reg ⟨r1.toNat, h1⟩).kind.isInteger = true →
    exec (.cmp r1 r2) s = .next
      { s with
        flagEq := decide (val (s.reg ⟨r1.toNat, h1⟩) = val (s.reg ⟨r2.toNat, h2⟩))
        flagGt := decide (val (s.reg ⟨r1.toNat, h1⟩) > val (s.reg ⟨r2.toNat, h2⟩))
        ip := s.ip + 3 }

/-- CMP on two floats of one kind compares the numbers they stand for, with NaN unordered and the
infinities outermost (R114, by the spec's own inference G3; log 14). -/
def Obligations.CmpComparesFloats : Prop :=
  ∀ (r1 r2 : RegIndex) (s : State) (k : Kind) (f : FloatFormat) (p q : Nat),
    FormatOf k f → ∀ (h1 : r1.toNat < 8) (h2 : r2.toNat < 8),
    (s.reg ⟨r1.toNat, h1⟩).kind = k → (s.reg ⟨r2.toNat, h2⟩).kind = k →
    uval (s.reg ⟨r1.toNat, h1⟩) = p → uval (s.reg ⟨r2.toNat, h2⟩) = q →
    ∃ e g : Bool,
      exec (.cmp r1 r2) s = .next { s with flagEq := e, flagGt := g, ip := s.ip + 3 } ∧
      (f.NotANumber p ∨ f.NotANumber q → e = false ∧ g = false) ∧
      (f.Finite p → f.Finite q →
        (e = true ↔ f.toRat p = f.toRat q) ∧ (g = true ↔ f.toRat p > f.toRat q)) ∧
      (f.Infinite p → f.Infinite q →
        (e = true ↔ f.signOf p = f.signOf q) ∧
        (g = true ↔ f.signOf p = false ∧ f.signOf q = true)) ∧
      (f.Infinite p → f.Finite q → e = false ∧ g = !f.signOf p) ∧
      (f.Finite p → f.Infinite q → e = false ∧ g = f.signOf q)

/-- R150 and R152 to R156: every jump checks its register index, is taken on its condition alone, and
checks its target when taken. -/
def Obligations.JumpsFollowTheirConditions : Prop :=
  JumpLaw .jmp 0x03 (fun _ => true) ∧
  JumpLaw .je 0x04 (fun s => s.flagEq) ∧
  JumpLaw .jne 0x05 (fun s => !s.flagEq) ∧
  JumpLaw .jg 0x17 (fun s => s.flagGt) ∧
  JumpLaw .jl 0x08 (fun s => !s.flagGt && !s.flagEq)

/-- The condition summary R157: after a CMP of integers `a` and `b`, JE is taken iff a = b, JNE iff not,
JG iff a > b, JL iff a < b. -/
def Obligations.JumpsAfterCmp : Prop :=
  ∀ (r1 r2 r : RegIndex) (s : State) (h1 : r1.toNat < 8) (h2 : r2.toNat < 8) (h : r.toNat < 8)
    (n : Nat),
    (s.reg ⟨r1.toNat, h1⟩).kind = (s.reg ⟨r2.toNat, h2⟩).kind →
    (s.reg ⟨r1.toNat, h1⟩).kind.isInteger = true →
    (s.reg ⟨r.toNat, h⟩).kind.isInteger = true → val (s.reg ⟨r.toNat, h⟩) = n →
    n ≤ s.params.codeLen →
    ∃ t, exec (.cmp r1 r2) s = .next t ∧
      exec (.je r) t = .next { t with
        ip := if val (s.reg ⟨r1.toNat, h1⟩) = val (s.reg ⟨r2.toNat, h2⟩) then n else t.ip + 2 } ∧
      exec (.jne r) t = .next { t with
        ip := if val (s.reg ⟨r1.toNat, h1⟩) ≠ val (s.reg ⟨r2.toNat, h2⟩) then n else t.ip + 2 } ∧
      exec (.jg r) t = .next { t with
        ip := if val (s.reg ⟨r1.toNat, h1⟩) > val (s.reg ⟨r2.toNat, h2⟩) then n else t.ip + 2 } ∧
      exec (.jl r) t = .next { t with
        ip := if val (s.reg ⟨r1.toNat, h1⟩) < val (s.reg ⟨r2.toNat, h2⟩) then n else t.ip + 2 }

/-! ### Heap access (43_heap_access.md) -/

/-- R160 and R162: a store checks the register index, then the address; it writes the cell whose number is
the address operand and leaves every other cell and all else but `ip` as it was. The heap is taken in its
canonical form, an invariant of the machine. -/
def Obligations.StoresWriteTheAddressedCell : Prop :=
  (∀ (a : HeapAddr) (imm : Value) (s : State),
    (∀ bs, IsImmBytes imm bs → encode (.vstore a imm) = 0x09 :: addrBytes a ++ bs) ∧
    (s.params.heapSize ≤ a.toNat → raises (.vstore a imm) s .outOfBounds) ∧
    (a.toNat < s.params.heapSize → Heap.wf s.params.initValue s.heap = true →
      ∃ t, exec (.vstore a imm) s = .next t ∧ t.cell a.toNat = imm ∧
        (∀ b, b ≠ a.toNat → t.cell b = s.cell b) ∧
        t = { s with heap := t.heap, ip := s.ip + (6 + imm.kind.bytes) })) ∧
  (∀ (a : HeapAddr) (r : RegIndex) (s : State),
    encode (.vstorer a r) = 0x0B :: addrBytes a ++ [r] ∧
    (8 ≤ r.toNat → raises (.vstorer a r) s .invalidRegister) ∧
    ∀ h : r.toNat < 8,
      (s.params.heapSize ≤ a.toNat → raises (.vstorer a r) s .outOfBounds) ∧
      (a.toNat < s.params.heapSize → Heap.wf s.params.initValue s.heap = true →
        ∃ t, exec (.vstorer a r) s = .next t ∧ t.cell a.toNat = s.reg ⟨r.toNat, h⟩ ∧
          (∀ b, b ≠ a.toNat → t.cell b = s.cell b) ∧
          t = { s with heap := t.heap, ip := s.ip + 6 }))

/-- R161 and R163: a load moves one cell, to the stack or to a register. -/
def Obligations.LoadsMoveTheAddressedCell : Prop :=
  (∀ (a : HeapAddr) (s : State),
    encode (.vload a) = 0x0A :: addrBytes a ∧
    (s.params.heapSize ≤ a.toNat → raises (.vload a) s .outOfBounds) ∧
    (a.toNat < s.params.heapSize → s.stackIsFull = true →
      exec (.vload a) s = .fault .stackFull) ∧
    (a.toNat < s.params.heapSize → s.stackIsFull = false →
      exec (.vload a) s = .next { s with stack := s.cell a.toNat :: s.stack, ip := s.ip + 5 })) ∧
  (∀ (r : RegIndex) (a : HeapAddr) (s : State),
    encode (.vloadr r a) = 0x0C :: r :: addrBytes a ∧
    (8 ≤ r.toNat → raises (.vloadr r a) s .invalidRegister) ∧
    ∀ h : r.toNat < 8,
      (s.params.heapSize ≤ a.toNat → raises (.vloadr r a) s .outOfBounds) ∧
      (a.toNat < s.params.heapSize → ∃ t, exec (.vloadr r a) s = .next t ∧
        t.reg ⟨r.toNat, h⟩ = s.cell a.toNat ∧
        (∀ j : Fin 8, j.val ≠ r.toNat → t.reg j = s.reg j) ∧
        t = { s with regs := t.regs, ip := s.ip + 6 }))

/-- The heap law of E4: a VSTORE, then later, with the heap as it left it, a VLOAD of the same address
pushes the stored value. -/
def Obligations.LoadAfterStorePushesTheValue : Prop :=
  ∀ (a : HeapAddr) (v : Value) (s t u : State), Heap.wf s.params.initValue s.heap = true →
    a.toNat < s.params.heapSize → exec (.vstore a v) s = .next t →
    u.params = t.params → u.heap = t.heap → u.stackIsFull = false →
    exec (.vload a) u = .next { u with stack := v :: u.stack, ip := u.ip + 5 }

/-! ### The ALU (40_tagged_value_alu.md, 44_alu_ops.md) -/

/-- R116: integer addition, subtraction and multiplication wrap, and raise nothing on integers of one
kind. -/
def Obligations.IntegerAddSubMulWrap : Prop :=
  PushesWrapped .add (fun a b => a + b) ∧ PushesWrapped .sub (fun a b => a - b) ∧
    PushesWrapped .mul (fun a b => a * b)

/-- R117: integer division raises DivisionByZero on a zero divisor and otherwise truncates toward zero
and wraps. -/
def Obligations.IntegerDivTruncates : Prop :=
  ∀ (r1 r2 : RegIndex) (s : State) (h1 : r1.toNat < 8) (h2 : r2.toNat < 8),
    (s.reg ⟨r1.toNat, h1⟩).kind.isInteger = true →
    (s.reg ⟨r1.toNat, h1⟩).kind = (s.reg ⟨r2.toNat, h2⟩).kind →
    (val (s.reg ⟨r2.toNat, h2⟩) = 0 → raises (.div r1 r2) s .divisionByZero) ∧
    (val (s.reg ⟨r2.toNat, h2⟩) ≠ 0 → s.stackIsFull = false →
      ∃ v : Value, v.kind = (s.reg ⟨r1.toNat, h1⟩).kind ∧
        (uval v : Int) =
          (val (s.reg ⟨r1.toNat, h1⟩)).tdiv (val (s.reg ⟨r2.toNat, h2⟩)) % 2 ^ v.kind.width ∧
        exec (.div r1 r2) s = .next { s with stack := v :: s.stack, ip := s.ip + 3 })

/-- R118: AND, OR and XOR act bit by bit, and raise nothing on integers of one kind. -/
def Obligations.BitwiseActsOnPatterns : Prop :=
  PushesBitwise .and (fun a b => a && b) ∧ PushesBitwise .or (fun a b => a || b) ∧
    PushesBitwise .xor (fun a b => a != b)

/-- R119: the amount zero raises DivisionByZero; any other is taken modulo `N`; SHL fills with zeros, SHR
with zeros for an unsigned kind and with the sign bit for a signed one. -/
def Obligations.ShiftsFillAndWrap : Prop :=
  ∀ (r : RegIndex) (imm : Value) (s : State) (h : r.toNat < 8),
    (s.reg ⟨r.toNat, h⟩).kind.isInteger = true → (s.reg ⟨r.toNat, h⟩).kind = imm.kind →
    (uval imm = 0 →
      raises (.shl r imm) s .divisionByZero ∧ raises (.shr r imm) s .divisionByZero) ∧
    (uval imm ≠ 0 → s.stackIsFull = false →
      (∃ v : Value, v.kind = imm.kind ∧
        uval v = uval (s.reg ⟨r.toNat, h⟩) * 2 ^ (uval imm % v.kind.width) % 2 ^ v.kind.width ∧
        exec (.shl r imm) s = .next
          { s with stack := v :: s.stack, ip := s.ip + (3 + imm.kind.bytes) }) ∧
      (∃ v : Value, v.kind = imm.kind ∧
        (∀ j < v.kind.width, v.bits.getLsbD j =
          if j + uval imm % v.kind.width < v.kind.width then
            (s.reg ⟨r.toNat, h⟩).bits.getLsbD (j + uval imm % v.kind.width)
          else v.kind.isSigned && (s.reg ⟨r.toNat, h⟩).bits.getLsbD (v.kind.width - 1)) ∧
        exec (.shr r imm) s = .next
          { s with stack := v :: s.stack, ip := s.ip + (3 + imm.kind.bytes) }))

/-- R110 and R111: TypeMismatch is raised exactly on operands of different kinds and on kinds outside the
function's row, the empty kind always among them. -/
def Obligations.KindDisciplineOfTheAlu : Prop :=
  (∀ mk ∈ [Instr.cmp, .add, .sub, .mul, .div],
    MismatchOutside mk (fun k => decide (k ≠ .none))) ∧
  (∀ mk ∈ [Instr.and, .or, .xor], MismatchOutside mk Kind.isInteger) ∧
  ∀ mk ∈ [Instr.shr, .shl], MismatchOutsideImm mk Kind.isInteger

/-- The frame of R170: an ALU instruction that completes has pushed one value and moved on, and has written no
register, flag or cell; on a fault nothing is pushed; a bad register index raises InvalidRegister. Which value
is pushed is stated apart, function by function. The counter of drawn NaN payloads, which may move by one,
is the model's own (log 6). -/
def Obligations.AluOnlyPushes : Prop :=
  ∀ (i : Instr) (s : State), i.isAlu = true →
    ((∃ r ∈ i.regOperands, 8 ≤ r.toNat) → raises i s .invalidRegister) ∧
    ∀ t, exec i s = .next t →
      (∃ e, t = { s with rs := .faulted (.execute e) }) ∨
      ∃ v n, (n = s.nanDraws ∨ n = s.nanDraws + 1) ∧
        t = { s with stack := v :: s.stack, ip := s.ip + i.width, nanDraws := n }

/-- An ALU instruction whose operands raise no error has no step when the stack is at its capacity, where it
would push its result (R29 with R110, R111, R117, R119 and R170; log 8). -/
def Obligations.AluIsStuckAtCapacity : Prop :=
  (∀ mk ∈ [Instr.add, .sub, .mul],
    StuckAtCapacity mk fun a b => a.kind = b.kind ∧ a.kind ≠ .none) ∧
  (StuckAtCapacity .div fun a b =>
    a.kind = b.kind ∧ a.kind ≠ .none ∧ (a.kind.isInteger = true → val b ≠ 0)) ∧
  (∀ mk ∈ [Instr.and, .or, .xor],
    StuckAtCapacity mk fun a b => a.kind = b.kind ∧ a.kind.isInteger = true) ∧
  ∀ mk ∈ [Instr.shr, .shl],
    StuckAtCapacityImm mk fun a b => a.kind = b.kind ∧ a.kind.isInteger = true ∧ uval b ≠ 0

/-- The one rounding: the pattern chosen for a quotient of units is nearest, ties go to the even pattern,
and overflow gives the infinity (R120, by the spec's own inference G4; log 14). -/
def Obligations.RoundingIsNearestEven : Prop :=
  ∀ (k : Kind) (f : FloatFormat) (num den : Nat), FormatOf k f → 0 < den →
    f.RoundsTo ((num : ℚ) / den * f.toRat 1) (f.roundMag num den)

/-- Float ADD, SUB, MUL and DIV on finite operands give the correctly rounded exact result
(R120, by the spec's own inference G4; log 14). -/
def Obligations.FloatArithmeticIsCorrectlyRounded : Prop :=
  FloatOpRounds .add (fun x y => x + y) false (fun a b => a && b) ∧
  FloatOpRounds .sub (fun x y => x - y) false (fun a b => a && !b) ∧
  FloatOpRounds .mul (fun x y => x * y) false (fun a b => a != b) ∧
  FloatOpRounds .div (fun x y => x / y) true (fun a b => a != b)

/-- Float operations with no numeric result push the next drawn NaN. Every draw is a NaN of its kind, made
by `nanOf` from the raw bits the free constants of `Config` hold for that draw, of which nothing is known; and
`nanOf` gives NaNs only and leaves every NaN as it is, so the draw can be any NaN pattern and nothing else
(R120, R121, by the spec's own inference G4, G5; log 6, 14). -/
def Obligations.FloatNaNResultsAreDrawn : Prop :=
  (∀ (r1 r2 : RegIndex) (s : State) (k : Kind) (f : FloatFormat) (p q : Nat),
    FloatOperands s r1 r2 k f p q →
    (f.NotANumber p ∨ f.NotANumber q → PushesDrawnNaN (.add r1 r2) s k ∧
      PushesDrawnNaN (.sub r1 r2) s k ∧ PushesDrawnNaN (.mul r1 r2) s k ∧
      PushesDrawnNaN (.div r1 r2) s k) ∧
    (f.Infinite p → f.Infinite q → f.signOf p ≠ f.signOf q → PushesDrawnNaN (.add r1 r2) s k) ∧
    (f.Infinite p → f.Infinite q → f.signOf p = f.signOf q → PushesDrawnNaN (.sub r1 r2) s k) ∧
    ((f.Zero p ∧ f.Infinite q) ∨ (f.Infinite p ∧ f.Zero q) → PushesDrawnNaN (.mul r1 r2) s k) ∧
    ((f.Zero p ∧ f.Zero q) ∨ (f.Infinite p ∧ f.Infinite q) → PushesDrawnNaN (.div r1 r2) s k)) ∧
  (∀ n : Nat,
    (drawnNaN .f32 n).kind = .f32 ∧
    uval (drawnNaN .f32 n) = FloatFormat.nanOf ⟨23, 8⟩ (Config.nanDraw32 n).toNat ∧
    (drawnNaN .f64 n).kind = .f64 ∧
    uval (drawnNaN .f64 n) = FloatFormat.nanOf ⟨52, 11⟩ (Config.nanDraw64 n).toNat) ∧
  ∀ (k : Kind) (f : FloatFormat), FormatOf k f → ∀ raw < 2 ^ k.width,
    f.nanOf raw < 2 ^ k.width ∧ f.NotANumber (f.nanOf raw) ∧
      (f.NotANumber raw → f.nanOf raw = raw)

/-- Float operations on infinities, and division of a non-zero number by zero (R120, by the spec's own
inference G4; log 14). -/
def Obligations.FloatInfinitiesFollowTheirSigns : Prop :=
  ∀ (r1 r2 : RegIndex) (s : State) (k : Kind) (f : FloatFormat) (p q : Nat),
    FloatOperands s r1 r2 k f p q →
    (f.Infinite p → f.Finite q ∨ (f.Infinite q ∧ f.signOf p = f.signOf q) →
      PushesSome (.add r1 r2) s k (fun x => x = p)) ∧
    (f.Finite p → f.Infinite q → PushesSome (.add r1 r2) s k (fun x => x = q)) ∧
    (f.Infinite p → f.Finite q ∨ (f.Infinite q ∧ f.signOf p ≠ f.signOf q) →
      PushesSome (.sub r1 r2) s k (fun x => x = p)) ∧
    (f.Finite p → f.Infinite q →
      PushesSome (.sub r1 r2) s k (fun x => f.Infinite x ∧ f.signOf x = !f.signOf q)) ∧
    ((f.Infinite p ∧ ¬f.Zero q ∧ ¬f.NotANumber q) ∨ (f.Infinite q ∧ ¬f.Zero p ∧ ¬f.NotANumber p) →
      PushesSome (.mul r1 r2) s k
        (fun x => f.Infinite x ∧ f.signOf x = (f.signOf p != f.signOf q))) ∧
    ((f.Infinite p ∧ f.Finite q) ∨ (f.Finite p ∧ ¬f.Zero p ∧ f.Zero q) →
      PushesSome (.div r1 r2) s k
        (fun x => f.Infinite x ∧ f.signOf x = (f.signOf p != f.signOf q))) ∧
    (f.Finite p → f.Infinite q →
      PushesSome (.div r1 r2) s k
        (fun x => f.Zero x ∧ f.signOf x = (f.signOf p != f.signOf q)))

/-! ### Operand stack (45_stack_ops.md) -/

/-- R180 and R181. -/
def Obligations.PushesPutTheirOperandOnTop : Prop :=
  (∀ (imm : Value) (s : State),
    (∀ bs, IsImmBytes imm bs → encode (.vpush imm) = 0x18 :: bs) ∧
    (s.stackIsFull = true → exec (.vpush imm) s = .fault .stackFull) ∧
    (s.stackIsFull = false → exec (.vpush imm) s = .next
      { s with stack := imm :: s.stack, ip := s.ip + (2 + imm.kind.bytes) })) ∧
  (∀ (r : RegIndex) (s : State),
    encode (.vpushr r) = [0x19, r] ∧
    (8 ≤ r.toNat → raises (.vpushr r) s .invalidRegister) ∧
    ∀ h : r.toNat < 8,
      (s.stackIsFull = true → exec (.vpushr r) s = .fault .stackFull) ∧
      (s.stackIsFull = false → exec (.vpushr r) s = .next
        { s with stack := s.reg ⟨r.toNat, h⟩ :: s.stack, ip := s.ip + 2 }))

/-- R182. -/
def Obligations.PopTakesTheTop : Prop :=
  ∀ (r : RegIndex) (s : State),
    encode (.vpop r) = [0x1A, r] ∧
    (8 ≤ r.toNat → raises (.vpop r) s .invalidRegister) ∧
    ∀ h : r.toNat < 8,
      (s.stack = [] → raises (.vpop r) s .stackUnderflow) ∧
      ∀ v rest, s.stack = v :: rest → ∃ t, exec (.vpop r) s = .next t ∧
        t.reg ⟨r.toNat, h⟩ = v ∧ (∀ j : Fin 8, j.val ≠ r.toNat → t.reg j = s.reg j) ∧
        t = { s with regs := t.regs, stack := rest, ip := s.ip + 2 }

/-- The stack law of E3: VPUSH of `v`, then VPOP of a register from a state with the stack it left, gives
the register `v` and the stack back. -/
def Obligations.PopAfterPushRestoresTheStack : Prop :=
  ∀ (v : Value) (r : RegIndex) (s t u : State) (h : r.toNat < 8), s.stackIsFull = false →
    exec (.vpush v) s = .next t → u.stack = t.stack →
    ∃ w, exec (.vpop r) u = .next w ∧ w.reg ⟨r.toNat, h⟩ = v ∧ w.stack = s.stack

/-! ### Call and return (46_call_return.md) -/

/-- R190. The pushed u64 is `ip + 2` itself wherever that is below `2^64`, as it is in every instance. -/
def Obligations.CallPushesTheReturnAddress : Prop :=
  ∀ (r : RegIndex) (s : State),
    encode (.call r) = [0x1B, r] ∧
    (8 ≤ r.toNat → raises (.call r) s .invalidRegister) ∧
    ∀ h : r.toNat < 8,
      (¬((s.reg ⟨r.toNat, h⟩).kind.isInteger = true ∧ 0 ≤ val (s.reg ⟨r.toNat, h⟩) ∧
          val (s.reg ⟨r.toNat, h⟩) ≤ s.params.codeLen) →
        raises (.call r) s .invalidJumpTarget) ∧
      ∀ n : Nat, (s.reg ⟨r.toNat, h⟩).kind.isInteger = true → val (s.reg ⟨r.toNat, h⟩) = n →
        n ≤ s.params.codeLen →
        (s.stackIsFull = true → exec (.call r) s = .fault .stackFull) ∧
        (s.stackIsFull = false → ∃ v : Value, v.kind = .u64 ∧
          (s.ip + 2 < 2 ^ 64 → uval v = s.ip + 2) ∧
          exec (.call r) s = .next { s with stack := v :: s.stack, ip := n })

/-- R191. -/
def Obligations.RetPopsAValidTarget : Prop :=
  encode .ret = [0x1C] ∧
  ∀ s : State,
    (s.stack = [] → raises .ret s .stackUnderflow) ∧
    ∀ v rest, s.stack = v :: rest →
      (¬(v.kind.isInteger = true ∧ 0 ≤ val v ∧ val v ≤ s.params.codeLen) →
        raises .ret s .invalidJumpTarget) ∧
      ∀ n : Nat, v.kind.isInteger = true → val v = n → n ≤ s.params.codeLen →
        exec .ret s = .next { s with stack := rest, ip := n }

/-- The call and return symmetry of E6: a RET from a state with the stack CALL left resumes right after
the CALL, with the stack as it was before it. -/
def Obligations.ReturnResumesAfterTheCall : Prop :=
  ∀ (r : RegIndex) (s t u : State), s.rs = .running → s.ip + 2 ≤ s.params.codeLen →
    s.params.codeLen < 2 ^ 64 → exec (.call r) s = .next t → t.rs = .running →
    u.stack = t.stack → u.params = t.params →
    exec .ret u = .next { u with stack := s.stack, ip := s.ip + 2 }

/-! ### Output and halt (47_output_halt.md) -/

/-- R200 and R201. -/
def Obligations.PrintsEmitTheTaggedValue : Prop :=
  (∀ (r : RegIndex) (s : State),
    encode (.printr r) = [0x07, r] ∧
    (8 ≤ r.toNat → raises (.printr r) s .invalidRegister) ∧
    ∀ h : r.toNat < 8, exec (.printr r) s = .next
      { s with out := s.out ++ [s.reg ⟨r.toNat, h⟩], ip := s.ip + 2 }) ∧
  (∀ (a : HeapAddr) (s : State),
    encode (.printv a) = 0x1D :: addrBytes a ∧
    (s.params.heapSize ≤ a.toNat → raises (.printv a) s .outOfBounds) ∧
    (a.toNat < s.params.heapSize → exec (.printv a) s = .next
      { s with out := s.out ++ [s.cell a.toNat], ip := s.ip + 5 }))

/-- HALT (R202). That a step from the Halted state it gives is the host's run request, which changes nothing
(R243), is the model's own choice (log 4). -/
def Obligations.HaltStopsInPlace : Prop :=
  encode .halt = [0x16] ∧
  ∀ s : State, exec .halt s = .next { s with rs := .halted } ∧
    ∀ t, exec .halt s = .next t → step t = .next t
end

