-- ==== Sys2Proof/Laws/State.lean ====
section
/-! SUPPORT. What each state update does to each field, so that no proof unfolds a record update. -/

namespace Sys2Proof.Machine

/-! `State.writeReg` -/

@[simp] theorem State.writeReg_params (s : State) (i : Fin 8) (v : Value) :
    (s.writeReg i v).params = s.params := rfl
@[simp] theorem State.writeReg_regs (s : State) (i : Fin 8) (v : Value) :
    (s.writeReg i v).regs = s.regs.set i v := rfl
@[simp] theorem State.writeReg_stack (s : State) (i : Fin 8) (v : Value) :
    (s.writeReg i v).stack = s.stack := rfl
@[simp] theorem State.writeReg_heap (s : State) (i : Fin 8) (v : Value) :
    (s.writeReg i v).heap = s.heap := rfl
@[simp] theorem State.writeReg_ip (s : State) (i : Fin 8) (v : Value) :
    (s.writeReg i v).ip = s.ip := rfl
@[simp] theorem State.writeReg_flagEq (s : State) (i : Fin 8) (v : Value) :
    (s.writeReg i v).flagEq = s.flagEq := rfl
@[simp] theorem State.writeReg_flagGt (s : State) (i : Fin 8) (v : Value) :
    (s.writeReg i v).flagGt = s.flagGt := rfl
@[simp] theorem State.writeReg_rs (s : State) (i : Fin 8) (v : Value) :
    (s.writeReg i v).rs = s.rs := rfl
@[simp] theorem State.writeReg_out (s : State) (i : Fin 8) (v : Value) :
    (s.writeReg i v).out = s.out := rfl
@[simp] theorem State.writeReg_nanDraws (s : State) (i : Fin 8) (v : Value) :
    (s.writeReg i v).nanDraws = s.nanDraws := rfl

/-! `State.setIp` -/

@[simp] theorem State.setIp_params (s : State) (t : Nat) :
    (s.setIp t).params = s.params := rfl
@[simp] theorem State.setIp_regs (s : State) (t : Nat) :
    (s.setIp t).regs = s.regs := rfl
@[simp] theorem State.setIp_stack (s : State) (t : Nat) :
    (s.setIp t).stack = s.stack := rfl
@[simp] theorem State.setIp_heap (s : State) (t : Nat) :
    (s.setIp t).heap = s.heap := rfl
@[simp] theorem State.setIp_ip (s : State) (t : Nat) :
    (s.setIp t).ip = t := rfl
@[simp] theorem State.setIp_flagEq (s : State) (t : Nat) :
    (s.setIp t).flagEq = s.flagEq := rfl
@[simp] theorem State.setIp_flagGt (s : State) (t : Nat) :
    (s.setIp t).flagGt = s.flagGt := rfl
@[simp] theorem State.setIp_rs (s : State) (t : Nat) :
    (s.setIp t).rs = s.rs := rfl
@[simp] theorem State.setIp_out (s : State) (t : Nat) :
    (s.setIp t).out = s.out := rfl
@[simp] theorem State.setIp_nanDraws (s : State) (t : Nat) :
    (s.setIp t).nanDraws = s.nanDraws := rfl

/-! `State.halt` -/

@[simp] theorem State.halt_params (s : State) :
    (s.halt).params = s.params := rfl
@[simp] theorem State.halt_regs (s : State) :
    (s.halt).regs = s.regs := rfl
@[simp] theorem State.halt_stack (s : State) :
    (s.halt).stack = s.stack := rfl
@[simp] theorem State.halt_heap (s : State) :
    (s.halt).heap = s.heap := rfl
@[simp] theorem State.halt_ip (s : State) :
    (s.halt).ip = s.ip := rfl
@[simp] theorem State.halt_flagEq (s : State) :
    (s.halt).flagEq = s.flagEq := rfl
@[simp] theorem State.halt_flagGt (s : State) :
    (s.halt).flagGt = s.flagGt := rfl
@[simp] theorem State.halt_rs (s : State) :
    (s.halt).rs = .halted := rfl
@[simp] theorem State.halt_out (s : State) :
    (s.halt).out = s.out := rfl
@[simp] theorem State.halt_nanDraws (s : State) :
    (s.halt).nanDraws = s.nanDraws := rfl

/-! `State.dropTop` -/

@[simp] theorem State.dropTop_params (s : State) :
    (s.dropTop).params = s.params := rfl
@[simp] theorem State.dropTop_regs (s : State) :
    (s.dropTop).regs = s.regs := rfl
@[simp] theorem State.dropTop_stack (s : State) :
    (s.dropTop).stack = s.stack.tail := rfl
@[simp] theorem State.dropTop_heap (s : State) :
    (s.dropTop).heap = s.heap := rfl
@[simp] theorem State.dropTop_ip (s : State) :
    (s.dropTop).ip = s.ip := rfl
@[simp] theorem State.dropTop_flagEq (s : State) :
    (s.dropTop).flagEq = s.flagEq := rfl
@[simp] theorem State.dropTop_flagGt (s : State) :
    (s.dropTop).flagGt = s.flagGt := rfl
@[simp] theorem State.dropTop_rs (s : State) :
    (s.dropTop).rs = s.rs := rfl
@[simp] theorem State.dropTop_out (s : State) :
    (s.dropTop).out = s.out := rfl
@[simp] theorem State.dropTop_nanDraws (s : State) :
    (s.dropTop).nanDraws = s.nanDraws := rfl

/-! `State.setFlags` -/

@[simp] theorem State.setFlags_params (s : State) (e g : Bool) :
    (s.setFlags e g).params = s.params := rfl
@[simp] theorem State.setFlags_regs (s : State) (e g : Bool) :
    (s.setFlags e g).regs = s.regs := rfl
@[simp] theorem State.setFlags_stack (s : State) (e g : Bool) :
    (s.setFlags e g).stack = s.stack := rfl
@[simp] theorem State.setFlags_heap (s : State) (e g : Bool) :
    (s.setFlags e g).heap = s.heap := rfl
@[simp] theorem State.setFlags_ip (s : State) (e g : Bool) :
    (s.setFlags e g).ip = s.ip := rfl
@[simp] theorem State.setFlags_flagEq (s : State) (e g : Bool) :
    (s.setFlags e g).flagEq = e := rfl
@[simp] theorem State.setFlags_flagGt (s : State) (e g : Bool) :
    (s.setFlags e g).flagGt = g := rfl
@[simp] theorem State.setFlags_rs (s : State) (e g : Bool) :
    (s.setFlags e g).rs = s.rs := rfl
@[simp] theorem State.setFlags_out (s : State) (e g : Bool) :
    (s.setFlags e g).out = s.out := rfl
@[simp] theorem State.setFlags_nanDraws (s : State) (e g : Bool) :
    (s.setFlags e g).nanDraws = s.nanDraws := rfl

/-! `State.emit` -/

@[simp] theorem State.emit_params (s : State) (v : Value) :
    (s.emit v).params = s.params := rfl
@[simp] theorem State.emit_regs (s : State) (v : Value) :
    (s.emit v).regs = s.regs := rfl
@[simp] theorem State.emit_stack (s : State) (v : Value) :
    (s.emit v).stack = s.stack := rfl
@[simp] theorem State.emit_heap (s : State) (v : Value) :
    (s.emit v).heap = s.heap := rfl
@[simp] theorem State.emit_ip (s : State) (v : Value) :
    (s.emit v).ip = s.ip := rfl
@[simp] theorem State.emit_flagEq (s : State) (v : Value) :
    (s.emit v).flagEq = s.flagEq := rfl
@[simp] theorem State.emit_flagGt (s : State) (v : Value) :
    (s.emit v).flagGt = s.flagGt := rfl
@[simp] theorem State.emit_rs (s : State) (v : Value) :
    (s.emit v).rs = s.rs := rfl
@[simp] theorem State.emit_out (s : State) (v : Value) :
    (s.emit v).out = s.out ++ [v] := rfl
@[simp] theorem State.emit_nanDraws (s : State) (v : Value) :
    (s.emit v).nanDraws = s.nanDraws := rfl

/-! Reading a register after a write (R25: a register keeps its value until written). -/

@[simp] theorem State.reg_writeReg_same (s : State) (i : Fin 8) (v : Value) :
    (s.writeReg i v).reg i = v := by simp [State.reg, State.writeReg]

theorem State.reg_writeReg_other (s : State) {i j : Fin 8} (v : Value) (h : j ≠ i) :
    (s.writeReg i v).reg j = s.reg j := by
  have : (i : Nat) ≠ (j : Nat) := fun e => h (Fin.ext e.symm)
  simp [State.reg, State.writeReg, this]

/-! `State.runRequest` (R241 to R243) -/

@[simp] theorem State.runRequest_idle (s : State) (h : s.rs = .idle) :
    s.runRequest = { s with rs := .running } := by simp [State.runRequest, h]

theorem State.runRequest_other (s : State) (h : s.rs ≠ .idle) : s.runRequest = s := by
  unfold State.runRequest
  split <;> simp_all

/-! `State.resultValue` and `AluResult.draws` (R121): only a NaN result draws. -/

@[simp] theorem State.resultValue_value (s : State) (v : Value) : s.resultValue (.value v) = v := rfl

@[simp] theorem State.resultValue_nan (s : State) (k : Kind) :
    s.resultValue (.nan k) = drawnNaN k s.nanDraws := rfl

@[simp] theorem AluResult.draws_value (v : Value) : (AluResult.value v).draws = 0 := rfl

@[simp] theorem AluResult.draws_nan (k : Kind) : (AluResult.nan k).draws = 1 := rfl

end Sys2Proof.Machine
end

