-- ==== Sys2Proof/Laws/Heap.lean ====
section
/-! SUPPORT. The heap's canonical form is kept by every write, and reads follow writes (R52, R53; log 9). -/

namespace Sys2Proof.Machine

variable {init v : Value} {a b lo hi n : Nat} {h : Heap}

/-- A heap in canonical form from a higher address is so from a lower one. -/
theorem Heap.wfFrom_mono (hle : lo ≤ hi) (hw : Heap.wfFrom init hi h = true) :
    Heap.wfFrom init lo h = true := by
  cases h with
  | nil => rfl
  | cons c t =>
    simp only [Heap.wfFrom, Bool.and_eq_true, decide_eq_true_eq] at hw ⊢
    exact ⟨⟨by omega, hw.1.2⟩, hw.2⟩

/-- A heap in canonical form from `lo` lists nothing below `lo`. -/
theorem Heap.read_below (hw : Heap.wfFrom init lo h = true) (hlt : a < lo) :
    Heap.read init h a = init := by
  induction h generalizing lo with
  | nil => rfl
  | cons c t ih =>
    simp only [Heap.wfFrom, Bool.and_eq_true, decide_eq_true_eq] at hw
    simp [Heap.read, show a ≠ c.1 by omega, ih hw.2 (by omega)]

/-- A write keeps the canonical form. -/
theorem Heap.wfFrom_write (hw : Heap.wfFrom init lo h = true) (hle : lo ≤ a) :
    Heap.wfFrom init lo (Heap.write init h a v) = true := by
  induction h generalizing lo with
  | nil =>
    unfold Heap.write
    split <;> simp_all [Heap.wfFrom]
  | cons c t ih =>
    simp only [Heap.wfFrom, Bool.and_eq_true, decide_eq_true_eq] at hw
    have tail := hw.2
    unfold Heap.write
    split
    · split
      · simp_all [Heap.wfFrom]
      · simp_all [Heap.wfFrom]
    · split
      · split
        · exact Heap.wfFrom_mono (by omega) tail
        · simp_all [Heap.wfFrom]
      · have := ih tail (by omega)
        simp_all [Heap.wfFrom]

/-- Every heap write keeps the canonical form. -/
theorem Heap.wf_write (hw : Heap.wf init h = true) : Heap.wf init (Heap.write init h a v) = true :=
  Heap.wfFrom_write hw (Nat.zero_le a)

/-- The heap after reset is in canonical form. -/
theorem Heap.wf_reset : Heap.wf State.reset.params.initValue State.reset.heap = true := rfl

/-- A read of the written cell gives the value written (R53). -/
theorem Heap.read_write_same (hw : Heap.wfFrom init lo h = true) :
    Heap.read init (Heap.write init h a v) a = v := by
  induction h generalizing lo with
  | nil =>
    unfold Heap.write
    split <;> simp_all [Heap.read]
  | cons c t ih =>
    simp only [Heap.wfFrom, Bool.and_eq_true, decide_eq_true_eq] at hw
    unfold Heap.write
    split
    · split
      · have := Heap.read_below hw.2 (a := a) (by omega)
        simp_all [Heap.read, show a ≠ c.1 by omega]
      · simp [Heap.read]
    · split
      · split
        · have := Heap.read_below hw.2 (a := a) (by omega)
          simp_all
        · simp [Heap.read]
      · simp_all [Heap.read]
        exact ih hw.2

/-- A write leaves every other cell as it was, in any heap (R53). -/
theorem Heap.read_write_other (hne : b ≠ a) :
    Heap.read init (Heap.write init h a v) b = Heap.read init h b := by
  induction h with
  | nil =>
    unfold Heap.write
    split <;> simp_all [Heap.read]
  | cons c t ih =>
    unfold Heap.write
    split
    · split <;> simp_all [Heap.read]
    · split
      · split <;> simp_all [Heap.read]
      · simp_all [Heap.read]

/-- A write below `n` keeps every listed address below `n` (R30: the heap is never resized). -/
theorem Heap.write_keys_lt (hk : ∀ c ∈ h, c.1 < n) (ha : a < n) :
    ∀ c ∈ Heap.write init h a v, c.1 < n := by
  induction h with
  | nil =>
    unfold Heap.write
    split <;> simp_all
  | cons c t ih =>
    rw [List.forall_mem_cons] at hk
    have tail := ih hk.2
    unfold Heap.write
    split
    · split
      · exact List.forall_mem_cons.mpr hk
      · exact List.forall_mem_cons.mpr ⟨ha, List.forall_mem_cons.mpr hk⟩
    · split
      · split
        · exact hk.2
        · exact List.forall_mem_cons.mpr ⟨ha, hk.2⟩
      · simp only [List.forall_mem_cons]
        exact ⟨hk.1, tail⟩

end Sys2Proof.Machine
end

