-- ==== Sys2Proof/Laws/Ops.lean ====
section
/-! SUPPORT. For each shared operation, one lemma that says when it answers and what (the provers cite these
instead of unfolding the operations). -/

namespace Sys2Proof.Machine

variable {α β : Type} {s t : State} {v w : Value} {r r1 r2 : RegIndex}

/-! ### Answers of the checks, as equations with `Except` values -/

@[simp] theorem except_pure_ok {ε : Type} (a : α) : (pure a : Except ε α) = .ok a := rfl

@[simp] theorem except_bind_ok {ε : Type} (a : α) (f : α → Except ε β) :
    (Except.ok a >>= f) = f a := rfl

@[simp] theorem except_bind_error {ε : Type} (e : ε) (f : α → Except ε β) :
    ((Except.error e : Except ε α) >>= f) = .error e := rfl

@[simp] theorem except_throw {ε : Type} (e : ε) : (throw e : Except ε α) = .error e := rfl

/-- Taking a computation apart: it answers only if both of its parts do. -/
theorem except_bind_eq_ok {ε : Type} {x : Except ε α} {f : α → Except ε β} {b : β} :
    (x >>= f) = .ok b ↔ ∃ a, x = .ok a ∧ f a = .ok b := by
  cases x <;> simp

/-- Taking a computation apart: it stops where its first part does, or where its second does. -/
theorem except_bind_eq_error {ε : Type} {x : Except ε α} {f : α → Except ε β} {e : ε} :
    (x >>= f) = .error e ↔ x = .error e ∨ ∃ a, x = .ok a ∧ f a = .error e := by
  cases x <;> simp

@[simp] theorem raising_ok (a : α) : raising (.ok a) = .ok a := rfl

@[simp] theorem raising_error (e : ExecutionError) :
    raising (.error e : Except ExecutionError α) = .error (.raise e) := rfl

theorem raising_eq_ok {x : Except ExecutionError α} {a : α} : raising x = .ok a ↔ x = .ok a := by
  cases x <;> simp

theorem raising_eq_error {x : Except ExecutionError α} {p : Stop} :
    raising x = .error p ↔ ∃ e, x = .error e ∧ p = .raise e := by
  cases x <;> simp [eq_comm (b := p)]

/-! ### Register operands (R27) -/

theorem regIndex_of_lt (h : r.toNat < 8) : regIndex r = .ok ⟨r.toNat, h⟩ := by simp [regIndex, h]

theorem regIndex_of_ge (h : 8 ≤ r.toNat) : regIndex r = .error .invalidRegister := by
  simp [regIndex, Nat.not_lt.mpr h]

theorem regIndex_eq_ok {i : Fin 8} : regIndex r = .ok i ↔ i.val = r.toNat := by
  unfold regIndex
  split
  · simp [Fin.ext_iff, eq_comm]
  · rename_i h
    simp only [reduceCtorEq, false_iff]
    omega

theorem regIndex_eq_error {e : ExecutionError} :
    regIndex r = .error e ↔ 8 ≤ r.toNat ∧ e = .invalidRegister := by
  unfold regIndex
  split
  · simp only [reduceCtorEq, false_iff]
    omega
  · simp only [Except.error.injEq, eq_comm]
    exact ⟨fun h => ⟨by omega, h⟩, fun h => h.2⟩

theorem readOperand_of_lt (h : r.toNat < 8) : s.readOperand r = .ok (s.reg ⟨r.toNat, h⟩) := by
  simp [State.readOperand, regIndex_of_lt h]

theorem readOperand_of_ge (h : 8 ≤ r.toNat) :
    s.readOperand r = .error (.raise .invalidRegister) := by
  simp [State.readOperand, regIndex_of_ge h]

theorem readOperand_eq_ok : s.readOperand r = .ok v ↔ ∃ h : r.toNat < 8, v = s.reg ⟨r.toNat, h⟩ := by
  by_cases h : r.toNat < 8
  · simp [readOperand_of_lt h, h, eq_comm (b := v)]
  · simp [readOperand_of_ge (Nat.le_of_not_lt h), h]

theorem readOperand_eq_error {p : Stop} :
    s.readOperand r = .error p ↔ 8 ≤ r.toNat ∧ p = .raise .invalidRegister := by
  by_cases h : r.toNat < 8
  · simp only [readOperand_of_lt h, reduceCtorEq, false_iff]
    omega
  · simp only [readOperand_of_ge (Nat.le_of_not_lt h), Except.error.injEq, eq_comm]
    exact ⟨fun e => ⟨by omega, e⟩, fun e => e.2⟩

/-! ### The operand stack (R28, R29) -/

theorem push_eq_ok : s.push v = .ok t ↔ s.stackIsFull = false ∧ t = { s with stack := v :: s.stack } := by
  unfold State.push
  split <;> simp_all [eq_comm (b := t)]

theorem push_eq_error {p : Stop} :
    s.push v = .error p ↔ s.stackIsFull = true ∧ p = .stuck .stackFull := by
  unfold State.push
  split <;> simp_all [eq_comm (b := p)]

theorem stackIsFull_iff :
    s.stackIsFull = true ↔ ∃ c, s.params.stackCapacity = some c ∧ c ≤ s.stack.length := by
  unfold State.stackIsFull
  split <;> simp_all

theorem top_eq_ok : s.top = .ok v ↔ s.stack.head? = some v := by
  unfold State.top
  split <;> simp_all

theorem top_eq_error {p : Stop} : s.top = .error p ↔ s.stack = [] ∧ p = .raise .stackUnderflow := by
  unfold State.top
  split <;> simp_all [eq_comm (b := p)]

/-! ### The heap (R52) -/

theorem memRead_eq_ok {a : HeapAddr} :
    s.memRead a = .ok v ↔ a.toNat < s.params.heapSize ∧ v = s.cell a.toNat := by
  unfold State.memRead
  split <;> simp_all [eq_comm (b := v)]

theorem memRead_eq_error {a : HeapAddr} {p : Stop} :
    s.memRead a = .error p ↔ s.params.heapSize ≤ a.toNat ∧ p = .raise .outOfBounds := by
  unfold State.memRead
  split <;> simp_all [eq_comm (b := p)]

theorem memWrite_eq_ok {a : HeapAddr} :
    s.memWrite a v = .ok t ↔ a.toNat < s.params.heapSize ∧
      t = { s with heap := Heap.write s.params.initValue s.heap a.toNat v } := by
  unfold State.memWrite
  split <;> simp_all [eq_comm (b := t)]

theorem memWrite_eq_error {a : HeapAddr} {p : Stop} :
    s.memWrite a v = .error p ↔ s.params.heapSize ≤ a.toNat ∧ p = .raise .outOfBounds := by
  unfold State.memWrite
  split <;> simp_all [eq_comm (b := p)]

/-! ### Jump targets (R150) and kinds (R113) -/

theorem jumpTarget_eq_ok {n d : Nat} :
    jumpTarget n v = .ok d ↔ v.kind.isInteger = true ∧ val v = d ∧ d ≤ n := by
  unfold jumpTarget
  split
  · rename_i h
    simp only [Bool.and_eq_true, decide_eq_true_eq] at h
    simp only [Except.ok.injEq, h.1.1, true_and]
    omega
  · rename_i h
    simp only [Bool.and_eq_true, decide_eq_true_eq, not_and] at h
    simp only [reduceCtorEq, false_iff, not_and]
    intro hk hv
    have := h ⟨hk, by omega⟩
    omega

theorem jumpTarget_eq_error {n : Nat} {e : ExecutionError} :
    jumpTarget n v = .error e ↔
      ¬(v.kind.isInteger = true ∧ 0 ≤ val v ∧ val v ≤ n) ∧ e = .invalidJumpTarget := by
  unfold jumpTarget
  split <;> simp_all [eq_comm (b := e)]

theorem checkKinds_eq_ok {dom : Kind → Bool} {u : Unit} :
    checkKinds dom v w = .ok u ↔ v.kind = w.kind ∧ dom v.kind = true := by
  unfold checkKinds
  split
  · simp_all
  · split <;> simp_all

theorem checkKinds_eq_error {dom : Kind → Bool} {e : ExecutionError} :
    checkKinds dom v w = .error e ↔
      ¬(v.kind = w.kind ∧ dom v.kind = true) ∧ e = .typeMismatch := by
  unfold checkKinds
  split
  · simp_all [eq_comm (b := e)]
  · split <;> simp_all [eq_comm (b := e)]

theorem shiftAmount_eq_ok {n : Nat} :
    shiftAmount v = .ok n ↔ uval v ≠ 0 ∧ n = uval v % v.kind.width := by
  unfold shiftAmount
  split <;> simp_all [eq_comm (b := n)]

theorem shiftAmount_eq_error {e : ExecutionError} :
    shiftAmount v = .error e ↔ uval v = 0 ∧ e = .divisionByZero := by
  unfold shiftAmount
  split <;> simp_all [eq_comm (b := e)]

/-! ### The end of an instruction (R82, R213) -/

@[simp] theorem finish_fallThrough (n : Nat) :
    s.finish n (.ok (t, .fallThrough)) = .next (t.setIp (s.ip + n)) := rfl

@[simp] theorem finish_jump (n d : Nat) : s.finish n (.ok (t, .jump d)) = .next (t.setIp d) := rfl

@[simp] theorem finish_halt (n : Nat) : s.finish n (.ok (t, .halt)) = .next t.halt := rfl

@[simp] theorem finish_raise (n : Nat) (e : ExecutionError) :
    s.finish n (.error (.raise e)) = .next { s with rs := .faulted (.execute e) } := rfl

@[simp] theorem finish_stuck (n : Nat) (f : Fault) : s.finish n (.error (.stuck f)) = .fault f := rfl

/-- What a completed instruction can be: an error from the state before it, or one of the three
outcomes. -/
theorem finish_eq_next {n : Nat} {e : Effect} :
    s.finish n e = .next t ↔
      (∃ x, e = .error (.raise x) ∧ t = { s with rs := .faulted (.execute x) }) ∨
      (∃ u, e = .ok (u, .fallThrough) ∧ t = u.setIp (s.ip + n)) ∨
      (∃ u d, e = .ok (u, .jump d) ∧ t = u.setIp d) ∨
      (∃ u, e = .ok (u, .halt) ∧ t = u.halt) := by
  rcases e with (x | f) | ⟨u, (_ | d | _)⟩ <;> simp [eq_comm]

/-- An instruction is stuck only where its effect is. -/
theorem finish_eq_fault {n : Nat} {e : Effect} {f : Fault} :
    s.finish n e = .fault f ↔ e = .error (.stuck f) := by
  rcases e with (x | g) | ⟨u, (_ | d | _)⟩ <;> simp

/-- No instruction is refused. -/
theorem finish_ne_refused (n : Nat) (e : Effect) (x : Refusal) : s.finish n e ≠ .refused x := by
  rcases e with (y | g) | ⟨u, (_ | d | _)⟩ <;> simp

/-! ### The shared instruction shapes -/

/-- A pushed result: the stack grows by one, and beside it at most the draw counter moves (R121, R170). -/
theorem pushResult_eq_ok {res : AluResult} {x : State × Flow} :
    s.pushResult res = .ok x ↔ s.stackIsFull = false ∧
      x = ({ s with
        stack := s.resultValue res :: s.stack
        nanDraws := s.nanDraws + res.draws }, .fallThrough) := by
  simp [State.pushResult, except_bind_eq_ok, push_eq_ok, eq_comm (b := x)]

theorem pushResult_eq_error {res : AluResult} {p : Stop} :
    s.pushResult res = .error p ↔ s.stackIsFull = true ∧ p = .stuck .stackFull := by
  simp [State.pushResult, except_bind_eq_error, push_eq_error]

/-- A taken or untaken jump changes no state but `ip` (R152 to R156). -/
theorem jumpIf_eq_ok {taken : Bool} {x : State × Flow} :
    s.jumpIf taken r = .ok x ↔ ∃ h : r.toNat < 8,
      (taken = false ∧ x = (s, .fallThrough)) ∨
      (taken = true ∧ ∃ d, jumpTarget s.params.codeLen (s.reg ⟨r.toNat, h⟩) = .ok d ∧
        x = (s, .jump d)) := by
  cases taken <;>
    simp [State.jumpIf, except_bind_eq_ok, readOperand_eq_ok, raising_eq_ok, eq_comm (b := x)]

/-- A jump's form stops only by raising: a bad register index, or a bad target when it is taken. -/
theorem jumpIf_eq_error {taken : Bool} {p : Stop} :
    s.jumpIf taken r = .error p ↔ (8 ≤ r.toNat ∧ p = .raise .invalidRegister) ∨
      ∃ h : r.toNat < 8, taken = true ∧
        ∃ e, jumpTarget s.params.codeLen (s.reg ⟨r.toNat, h⟩) = .error e ∧ p = .raise e := by
  cases taken <;>
    simp [State.jumpIf, except_bind_eq_error, readOperand_eq_error, readOperand_eq_ok,
      raising_eq_error]

/-- The two-register ALU form answers when both registers exist, the function answers and the stack has
room; then the result is pushed (R170). -/
theorem alu2_eq_ok {f : Value → Value → Except ExecutionError AluResult} {x : State × Flow} :
    s.alu2 f r1 r2 = .ok x ↔ ∃ (h1 : r1.toNat < 8) (h2 : r2.toNat < 8) (res : AluResult),
      f (s.reg ⟨r1.toNat, h1⟩) (s.reg ⟨r2.toNat, h2⟩) = .ok res ∧ s.stackIsFull = false ∧
      x = ({ s with
        stack := s.resultValue res :: s.stack
        nanDraws := s.nanDraws + res.draws }, .fallThrough) := by
  simp only [State.alu2, except_bind_eq_ok, readOperand_eq_ok, raising_eq_ok, pushResult_eq_ok]
  constructor
  · rintro ⟨a, ⟨h1, rfl⟩, b, ⟨h2, rfl⟩, res, hf, hr⟩
    exact ⟨h1, h2, res, hf, hr⟩
  · rintro ⟨h1, h2, res, hf, hr⟩
    exact ⟨_, ⟨h1, rfl⟩, _, ⟨h2, rfl⟩, res, hf, hr⟩

/-- The two-register ALU form stops on a bad register index, on the function's own error, or on a full
stack, in this order (R170, R212). -/
theorem alu2_eq_error {f : Value → Value → Except ExecutionError AluResult} {p : Stop} :
    s.alu2 f r1 r2 = .error p ↔
      ((8 ≤ r1.toNat ∨ 8 ≤ r2.toNat) ∧ p = .raise .invalidRegister) ∨
      ∃ (h1 : r1.toNat < 8) (h2 : r2.toNat < 8),
        (∃ e, f (s.reg ⟨r1.toNat, h1⟩) (s.reg ⟨r2.toNat, h2⟩) = .error e ∧ p = .raise e) ∨
        (∃ res, f (s.reg ⟨r1.toNat, h1⟩) (s.reg ⟨r2.toNat, h2⟩) = .ok res ∧
          s.stackIsFull = true ∧ p = .stuck .stackFull) := by
  by_cases h1 : r1.toNat < 8
  · by_cases h2 : r2.toNat < 8
    · simp [State.alu2, readOperand_of_lt h1, readOperand_of_lt h2, h1, h2, except_bind_eq_error,
        raising_eq_error, raising_eq_ok, pushResult_eq_error, Nat.not_le.mpr h1, Nat.not_le.mpr h2]
    · simp [State.alu2, readOperand_of_lt h1, readOperand_of_ge (Nat.le_of_not_lt h2), h2,
        Nat.le_of_not_lt h2, eq_comm (b := p)]
  · simp [State.alu2, readOperand_of_ge (Nat.le_of_not_lt h1), h1, Nat.le_of_not_lt h1,
      eq_comm (b := p)]

/-- The shifts' form, as `alu2_eq_ok` (R178, R179). -/
theorem aluImm_eq_ok {f : Value → Value → Except ExecutionError AluResult} {x : State × Flow} :
    s.aluImm f r v = .ok x ↔ ∃ (h : r.toNat < 8) (res : AluResult),
      f (s.reg ⟨r.toNat, h⟩) v = .ok res ∧ s.stackIsFull = false ∧
      x = ({ s with
        stack := s.resultValue res :: s.stack
        nanDraws := s.nanDraws + res.draws }, .fallThrough) := by
  simp only [State.aluImm, except_bind_eq_ok, readOperand_eq_ok, raising_eq_ok, pushResult_eq_ok]
  constructor
  · rintro ⟨a, ⟨h, rfl⟩, res, hf, hr⟩
    exact ⟨h, res, hf, hr⟩
  · rintro ⟨h, res, hf, hr⟩
    exact ⟨_, ⟨h, rfl⟩, res, hf, hr⟩

/-- The shifts' form, as `alu2_eq_error` (R178, R179). -/
theorem aluImm_eq_error {f : Value → Value → Except ExecutionError AluResult} {p : Stop} :
    s.aluImm f r v = .error p ↔ (8 ≤ r.toNat ∧ p = .raise .invalidRegister) ∨
      ∃ h : r.toNat < 8,
        (∃ e, f (s.reg ⟨r.toNat, h⟩) v = .error e ∧ p = .raise e) ∨
        (∃ res, f (s.reg ⟨r.toNat, h⟩) v = .ok res ∧ s.stackIsFull = true ∧
          p = .stuck .stackFull) := by
  by_cases h : r.toNat < 8
  · simp [State.aluImm, readOperand_of_lt h, h, except_bind_eq_error, raising_eq_error,
      raising_eq_ok, pushResult_eq_error, Nat.not_le.mpr h]
  · simp [State.aluImm, readOperand_of_ge (Nat.le_of_not_lt h), h, Nat.le_of_not_lt h,
      eq_comm (b := p)]

end Sys2Proof.Machine
end

