-- ==== Sys2Proof/Laws/Alu.lean ====
section
/-! SUPPORT. When each ALU function and CMP's comparison answer, and with which error they stop
(40_tagged_value_alu.md R110 to R119). -/

namespace Sys2Proof.Machine

variable {a b : Value} {e : ExecutionError} {res : AluResult}

/-- Kinds that agree and are numeric: what `add`, `sub`, `mul`, `div` and CMP ask for. -/
abbrev SameNumeric (a b : Value) : Prop := a.kind = b.kind ∧ numericKind a.kind = true

/-- Kinds that agree and are integer: what the bitwise and shift functions ask for. -/
abbrev SameInteger (a b : Value) : Prop := a.kind = b.kind ∧ a.kind.isInteger = true

theorem checkKinds_of {dom : Kind → Bool} (h : a.kind = b.kind ∧ dom a.kind = true) :
    checkKinds dom a b = .ok () := checkKinds_eq_ok.mpr h

theorem checkKinds_of_not {dom : Kind → Bool} (h : ¬(a.kind = b.kind ∧ dom a.kind = true)) :
    checkKinds dom a b = .error .typeMismatch := checkKinds_eq_error.mpr ⟨h, rfl⟩

/-- The numeric kinds are all but the empty one (R111). -/
theorem numericKind_iff {k : Kind} : numericKind k = true ↔ k ≠ .none := by
  cases k <;> decide

/-- No kind is both an integer and a float kind. -/
theorem not_isFloat_of_isInteger {k : Kind} (h : k.isInteger = true) : k.isFloat = false := by
  cases k <;> simp_all [Kind.isInteger, Kind.isUnsigned, Kind.isSigned, Kind.isFloat]

theorem numericKind_of_isInteger {k : Kind} (h : k.isInteger = true) : numericKind k = true := by
  simp [numericKind, h]

theorem numericKind_of_isFloat {k : Kind} (h : k.isFloat = true) : numericKind k = true := by
  simp [numericKind, h]

theorem cmpFlags_eq_ok {x : Bool × Bool} :
    cmpFlags a b = .ok x ↔ SameNumeric a b ∧ x = (cmpEq a b, cmpGt a b) := by
  simp [cmpFlags, except_bind_eq_ok, checkKinds_eq_ok, eq_comm (b := x)]

theorem cmpFlags_eq_error : cmpFlags a b = .error e ↔ ¬SameNumeric a b ∧ e = .typeMismatch := by
  simp [cmpFlags, except_bind_eq_error, checkKinds_eq_error]

theorem aluAdd_eq_error : aluAdd a b = .error e ↔ ¬SameNumeric a b ∧ e = .typeMismatch := by
  unfold aluAdd
  split <;> simp [except_bind_eq_error, checkKinds_eq_error]

theorem aluSub_eq_error : aluSub a b = .error e ↔ ¬SameNumeric a b ∧ e = .typeMismatch := by
  unfold aluSub
  split <;> simp [except_bind_eq_error, checkKinds_eq_error]

theorem aluMul_eq_error : aluMul a b = .error e ↔ ¬SameNumeric a b ∧ e = .typeMismatch := by
  unfold aluMul
  split <;> simp [except_bind_eq_error, checkKinds_eq_error]

theorem aluDiv_eq_error : aluDiv a b = .error e ↔ (¬SameNumeric a b ∧ e = .typeMismatch) ∨
    (SameNumeric a b ∧ a.kind.isFloat = false ∧ val b = 0 ∧ e = .divisionByZero) := by
  unfold aluDiv
  split
  · simp_all [except_bind_eq_error, checkKinds_eq_error]
  · split <;> simp_all [except_bind_eq_error, checkKinds_eq_error, checkKinds_eq_ok,
      eq_comm (b := e)]

theorem aluAnd_eq_error : aluAnd a b = .error e ↔ ¬SameInteger a b ∧ e = .typeMismatch := by
  simp [aluAnd, except_bind_eq_error, checkKinds_eq_error]

theorem aluOr_eq_error : aluOr a b = .error e ↔ ¬SameInteger a b ∧ e = .typeMismatch := by
  simp [aluOr, except_bind_eq_error, checkKinds_eq_error]

theorem aluXor_eq_error : aluXor a b = .error e ↔ ¬SameInteger a b ∧ e = .typeMismatch := by
  simp [aluXor, except_bind_eq_error, checkKinds_eq_error]

theorem aluShr_eq_error : aluShr a b = .error e ↔ (¬SameInteger a b ∧ e = .typeMismatch) ∨
    (SameInteger a b ∧ uval b = 0 ∧ e = .divisionByZero) := by
  simp [aluShr, except_bind_eq_error, checkKinds_eq_error, checkKinds_eq_ok, shiftAmount_eq_error]

theorem aluShl_eq_error : aluShl a b = .error e ↔ (¬SameInteger a b ∧ e = .typeMismatch) ∨
    (SameInteger a b ∧ uval b = 0 ∧ e = .divisionByZero) := by
  simp [aluShl, except_bind_eq_error, checkKinds_eq_error, checkKinds_eq_ok, shiftAmount_eq_error]

end Sys2Proof.Machine
end

