-- ==== Sys2Proof/Laws/PerInstr.lean ====
section
/-! SUPPORT. The per-instruction family EncodedLength: how long an encoding is (R74, R79). -/

namespace Sys2Proof.Laws

/-- `leBytes` gives as many bytes as asked for. -/
@[simp] theorem leBytes_length (n v : Nat) : (leBytes n v).length = n := by
  induction n generalizing v with
  | zero => rfl
  | succ n ih => simp [leBytes, ih]

@[simp] theorem encodeAddr_length (a : HeapAddr) : (encodeAddr a).length = 4 := leBytes_length 4 _

@[simp] theorem encodeImm_length (v : Value) : (encodeImm v).length = 1 + v.kind.bytes := by
  simp [encodeImm, Nat.add_comm]

/-- No payload has more than 8 bytes (R21). -/
theorem kind_bytes_le (k : Kind) : k.bytes ≤ 8 := by cases k <;> decide

end Sys2Proof.Laws

namespace Sys2Proof.Laws.EncodedLength

/-- An instruction's encoding begins with its opcode byte, which is below 30, is as long as the
instruction's width, and has 1 to 14 bytes (R74, R75, R79). -/
def Statement (i : Instr) : Prop :=
  (encode i).head? = some i.opcode ∧ i.opcode.toNat < 30 ∧
    (encode i).length = i.width ∧ 1 ≤ i.width ∧ i.width ≤ 14

theorem nop : Statement (.nop) := by
  simp [Statement, encode, Instr.opcode, Instr.fieldBytes, Instr.width]

theorem mov (r : RegIndex) (imm : Value) : Statement (.mov r imm) := by
  have := kind_bytes_le imm.kind
  simp [Statement, encode, Instr.opcode, Instr.fieldBytes, Instr.width]
  omega

theorem movr (r1 : RegIndex) (r2 : RegIndex) : Statement (.movr r1 r2) := by
  simp [Statement, encode, Instr.opcode, Instr.fieldBytes, Instr.width]

theorem jmp (r : RegIndex) : Statement (.jmp r) := by
  simp [Statement, encode, Instr.opcode, Instr.fieldBytes, Instr.width]

theorem je (r : RegIndex) : Statement (.je r) := by
  simp [Statement, encode, Instr.opcode, Instr.fieldBytes, Instr.width]

theorem jne (r : RegIndex) : Statement (.jne r) := by
  simp [Statement, encode, Instr.opcode, Instr.fieldBytes, Instr.width]

theorem cmp (r1 : RegIndex) (r2 : RegIndex) : Statement (.cmp r1 r2) := by
  simp [Statement, encode, Instr.opcode, Instr.fieldBytes, Instr.width]

theorem printr (r : RegIndex) : Statement (.printr r) := by
  simp [Statement, encode, Instr.opcode, Instr.fieldBytes, Instr.width]

theorem jl (r : RegIndex) : Statement (.jl r) := by
  simp [Statement, encode, Instr.opcode, Instr.fieldBytes, Instr.width]

theorem vstore (a : HeapAddr) (imm : Value) : Statement (.vstore a imm) := by
  have := kind_bytes_le imm.kind
  simp [Statement, encode, Instr.opcode, Instr.fieldBytes, Instr.width]
  omega

theorem vload (a : HeapAddr) : Statement (.vload a) := by
  simp [Statement, encode, Instr.opcode, Instr.fieldBytes, Instr.width]

theorem vstorer (a : HeapAddr) (r : RegIndex) : Statement (.vstorer a r) := by
  simp [Statement, encode, Instr.opcode, Instr.fieldBytes, Instr.width]

theorem vloadr (r : RegIndex) (a : HeapAddr) : Statement (.vloadr r a) := by
  simp [Statement, encode, Instr.opcode, Instr.fieldBytes, Instr.width]

theorem add (r1 : RegIndex) (r2 : RegIndex) : Statement (.add r1 r2) := by
  simp [Statement, encode, Instr.opcode, Instr.fieldBytes, Instr.width]

theorem sub (r1 : RegIndex) (r2 : RegIndex) : Statement (.sub r1 r2) := by
  simp [Statement, encode, Instr.opcode, Instr.fieldBytes, Instr.width]

theorem mul (r1 : RegIndex) (r2 : RegIndex) : Statement (.mul r1 r2) := by
  simp [Statement, encode, Instr.opcode, Instr.fieldBytes, Instr.width]

theorem div (r1 : RegIndex) (r2 : RegIndex) : Statement (.div r1 r2) := by
  simp [Statement, encode, Instr.opcode, Instr.fieldBytes, Instr.width]

theorem and (r1 : RegIndex) (r2 : RegIndex) : Statement (.and r1 r2) := by
  simp [Statement, encode, Instr.opcode, Instr.fieldBytes, Instr.width]

theorem or (r1 : RegIndex) (r2 : RegIndex) : Statement (.or r1 r2) := by
  simp [Statement, encode, Instr.opcode, Instr.fieldBytes, Instr.width]

theorem xor (r1 : RegIndex) (r2 : RegIndex) : Statement (.xor r1 r2) := by
  simp [Statement, encode, Instr.opcode, Instr.fieldBytes, Instr.width]

theorem shr (r : RegIndex) (imm : Value) : Statement (.shr r imm) := by
  have := kind_bytes_le imm.kind
  simp [Statement, encode, Instr.opcode, Instr.fieldBytes, Instr.width]
  omega

theorem shl (r : RegIndex) (imm : Value) : Statement (.shl r imm) := by
  have := kind_bytes_le imm.kind
  simp [Statement, encode, Instr.opcode, Instr.fieldBytes, Instr.width]
  omega

theorem halt : Statement (.halt) := by
  simp [Statement, encode, Instr.opcode, Instr.fieldBytes, Instr.width]

theorem jg (r : RegIndex) : Statement (.jg r) := by
  simp [Statement, encode, Instr.opcode, Instr.fieldBytes, Instr.width]

theorem vpush (imm : Value) : Statement (.vpush imm) := by
  have := kind_bytes_le imm.kind
  simp [Statement, encode, Instr.opcode, Instr.fieldBytes, Instr.width]
  omega

theorem vpushr (r : RegIndex) : Statement (.vpushr r) := by
  simp [Statement, encode, Instr.opcode, Instr.fieldBytes, Instr.width]

theorem vpop (r : RegIndex) : Statement (.vpop r) := by
  simp [Statement, encode, Instr.opcode, Instr.fieldBytes, Instr.width]

theorem call (r : RegIndex) : Statement (.call r) := by
  simp [Statement, encode, Instr.opcode, Instr.fieldBytes, Instr.width]

theorem ret : Statement (.ret) := by
  simp [Statement, encode, Instr.opcode, Instr.fieldBytes, Instr.width]

theorem printv (a : HeapAddr) : Statement (.printv a) := by
  simp [Statement, encode, Instr.opcode, Instr.fieldBytes, Instr.width]

end Sys2Proof.Laws.EncodedLength
end

