-- ==== Sys2Proof/Laws/Decode.lean ====
section
/-! SUPPORT. Byte order and kind tags, forwards and back (R54, R72). -/

namespace Sys2Proof.Laws

/-- Reading back the low bytes of a number gives it modulo `256 ^ n`. -/
theorem leNat_leBytes (n v : Nat) : leNat (leBytes n v) = v % 256 ^ n := by
  induction n generalizing v with
  | zero => simp [leBytes, leNat, Nat.mod_one]
  | succ n ih =>
    simp only [leBytes, leNat, ih, BitVec.toNat_ofNat]
    have h : (256 : Nat) ^ (n + 1) = 256 * 256 ^ n := Nat.pow_succ'
    rw [h, Nat.mod_mul (a := 256) (b := 256 ^ n)]

/-- The number of a byte sequence is below `256 ^ n`. -/
theorem leNat_lt (bs : List Byte) : leNat bs < 256 ^ bs.length := by
  induction bs with
  | nil => simp [leNat]
  | cons b bs ih =>
    have := b.isLt
    simp only [leNat, List.length_cons, Nat.pow_succ]
    omega

/-- The bytes of a byte sequence's number are the sequence. -/
theorem leBytes_leNat (bs : List Byte) : leBytes bs.length (leNat bs) = bs := by
  induction bs with
  | nil => rfl
  | cons b bs ih =>
    have := b.isLt
    have h1 : BitVec.ofNat 8 (leNat (b :: bs)) = b := by
      apply BitVec.eq_of_toNat_eq
      simp only [leNat, BitVec.toNat_ofNat]
      omega
    have h2 : leNat (b :: bs) / 256 = leNat bs := by
      simp only [leNat]
      omega
    simp [leBytes, h1, h2, ih]

/-- A payload's patterns are those below `256 ^ bytes`. -/
theorem two_pow_width (k : Kind) : 2 ^ k.width = 256 ^ k.bytes := by
  rw [Kind.width, Nat.pow_mul]

/-- Every kind but the empty one has a tag, and the tag names it. -/
theorem kindOfTag_tagOfKind {k : Kind} (h : k ≠ .none) : kindOfTag (tagOfKind k).toNat = some k := by
  cases k <;> first | rfl | exact absurd rfl h

/-- A tag that names a kind is that kind's tag, and the kind is not the empty one. -/
theorem tagOfKind_kindOfTag {t : Byte} {k : Kind} (h : kindOfTag t.toNat = some k) :
    tagOfKind k = t ∧ k ≠ .none := by
  have ht : t.toNat < 10 := by
    by_contra hn
    unfold kindOfTag at h
    split at h <;> first | omega | cases h
  obtain ⟨n, hn⟩ : ∃ n, t.toNat = n := ⟨_, rfl⟩
  have hte : t = BitVec.ofNat 8 n := by
    apply BitVec.eq_of_toNat_eq
    simp only [BitVec.toNat_ofNat]
    omega
  rw [hn] at h ht
  subst hte
  interval_cases n <;> cases h <;> decide

/-- A value is the one its kind and its own pattern make. -/
theorem ofNat_toNat (v : Value) : Value.ofNat v.kind v.bits.toNat = v := by
  simp [Value.ofNat]

/-- An address field reads back as the address. -/
theorem leNat_encodeAddr (a : HeapAddr) : leNat (encodeAddr a) = a.toNat := by
  rw [encodeAddr, leNat_leBytes]
  exact Nat.mod_eq_of_lt a.isLt

end Sys2Proof.Laws
end

