-- ==== Sys2Proof/Tests/Slice0.lean ====
section
/-! SUPPORT. Tests on small states, expected results taken from spec/ (95_test_vectors.md and the rules' examples),
and a witness for the hypotheses of every statement. -/

namespace Sys2Proof.Tests

open Sys2Proof Sys2Proof.Machine Sys2Proof.Claims

/-! ### Helpers -/

def u8 (n : Nat) : Value := Value.ofNat .u8 n
def i8 (n : Int) : Value := Value.ofInt .i8 n
def u16 (n : Nat) : Value := Value.ofNat .u16 n
def i16 (n : Int) : Value := Value.ofInt .i16 n
def u32 (n : Nat) : Value := Value.ofNat .u32 n
def i32 (n : Int) : Value := Value.ofInt .i32 n
def u64 (n : Nat) : Value := Value.ofNat .u64 n
def i64 (n : Int) : Value := Value.ofInt .i64 n
def f32 (bits : Nat) : Value := Value.ofNat .f32 bits
def f64 (bits : Nat) : Value := Value.ofNat .f64 bits

/-- A running instance with 16 heap cells, at offset 0 of the given code, registers set as listed. -/
def start (code : List Byte) (regs : List (Fin 8 × Value)) : State :=
  regs.foldl (fun s p => s.writeReg p.1 p.2)
    { State.construct ⟨code, 16, Value.empty, none⟩ with rs := .running }

/-- The same with a stack bounded at one slot, which is taken. -/
def full (regs : List (Fin 8 × Value)) : State :=
  let s := start [0, 0, 0, 0] regs
  { s with params := { s.params with stackCapacity := some 1 }, stack := [u8 7] }

/-- The next state, if there is one. -/
def after : Host.Outcome State Fault Refusal → Option State
  | .next s => some s
  | .fault _ | .refused _ => none

/-- The error a faulted state records. -/
def errorOf (o : Host.Outcome State Fault Refusal) : Option Error :=
  match after o with
  | some s =>
    match s.rs with
    | .faulted e => some e
    | .idle | .running | .halted => none
  | none => none

def ex (i : Instr) (regs : List (Fin 8 × Value)) : Host.Outcome State Fault Refusal :=
  exec i (start [0, 0, 0, 0] regs)

/-! ### WellFormed smoke: an immediate of kind none is refused in each format that has one (R73) -/

theorem test_illFormed_mov : (Instr.mov 0 Value.empty).wellFormed = false := by decide
theorem test_illFormed_vstore : (Instr.vstore 0 Value.empty).wellFormed = false := by decide
theorem test_illFormed_shr : (Instr.shr 0 Value.empty).wellFormed = false := by decide
theorem test_illFormed_shl : (Instr.shl 0 Value.empty).wellFormed = false := by decide
theorem test_illFormed_vpush : (Instr.vpush Value.empty).wellFormed = false := by decide
theorem test_wellFormed_mov : (Instr.mov 255 (u8 0)).wellFormed = true := by decide

/-! ### Decoding: one word of every constructor, written out from R74, R75 and the rules' examples -/

def reads (bs : List Byte) (i : Instr) (w : Nat) : Bool :=
  match decodeBytes bs with
  | .ok (j, n) => decide (j = i ∧ n = w) && decide ((encode i).length = w)
  | .error _ => false

def rejects (bs : List Byte) (e : DecodeError) : Bool :=
  match decodeBytes bs with
  | .ok _ => false
  | .error x => decide (x = e)

-- R140, R141, R142
theorem test_decode_moves :
    reads [0x00] .nop 1 ∧ reads [0x01, 0x03, 0x03, 0xFE, 0xFF] (.mov 3 (i16 (-2))) 5 ∧
      reads [0x02, 0x05, 0x02] (.movr 5 2) 3 := by decide
-- R151 to R156
theorem test_decode_branches :
    reads [0x06, 0, 1] (.cmp 0 1) 3 ∧ reads [0x03, 3] (.jmp 3) 2 ∧ reads [0x04, 2] (.je 2) 2 ∧
      reads [0x05, 4] (.jne 4) 2 ∧ reads [0x17, 2] (.jg 2) 2 ∧ reads [0x08, 2] (.jl 2) 2 := by decide
-- R160 to R163
theorem test_decode_heap :
    reads [0x09, 5, 0, 0, 0, 0, 0x2A] (.vstore 5 (u8 42)) 7 ∧
      reads [0x0A, 5, 0, 0, 0] (.vload 5) 5 ∧ reads [0x0B, 0x10, 0, 0, 0, 3] (.vstorer 16 3) 6 ∧
      reads [0x0C, 7, 0xFF, 3, 0, 0] (.vloadr 7 1023) 6 := by decide
-- R171 to R179
theorem test_decode_alu :
    reads [0x0D, 0, 1] (.add 0 1) 3 ∧ reads [0x0E, 0, 1] (.sub 0 1) 3 ∧
      reads [0x0F, 2, 3] (.mul 2 3) 3 ∧ reads [0x10, 0, 2] (.div 0 2) 3 ∧
      reads [0x11, 0, 1] (.and 0 1) 3 ∧ reads [0x12, 0, 1] (.or 0 1) 3 ∧
      reads [0x13, 0, 1] (.xor 0 1) 3 ∧ reads [0x14, 1, 1, 2] (.shr 1 (i8 2)) 4 ∧
      reads [0x15, 0, 5, 1, 0, 0, 0] (.shl 0 (i32 1)) 7 := by decide
-- R180 to R182, R190, R191, R200 to R202
theorem test_decode_rest :
    reads [0x18, 5, 0xFB, 0xFF, 0xFF, 0xFF] (.vpush (i32 (-5))) 6 ∧
      reads [0x19, 6] (.vpushr 6) 2 ∧ reads [0x1A, 2] (.vpop 2) 2 ∧ reads [0x1B, 4] (.call 4) 2 ∧
      reads [0x1C, 0x99] .ret 1 ∧ reads [0x07, 0] (.printr 0) 2 ∧
      reads [0x1D, 2, 0, 0, 0] (.printv 2) 5 ∧ reads [0x16] .halt 1 := by decide
-- V1.7, V1.11, V1.14: byte order of payloads
theorem test_decode_payloads :
    reads [1, 0, 2, 0x34, 0x12] (.mov 0 (u16 0x1234)) 5 ∧
      reads [9, 0, 0, 0, 0, 6, 1, 2, 3, 4, 5, 6, 7, 8] (.vstore 0 (u64 0x0807060504030201)) 14 ∧
      reads [0x18, 9, 0, 0, 0, 0, 0, 0, 0xF0, 0x7F] (.vpush (f64 0x7FF0000000000000)) 10 := by decide
-- V1.1 to V1.6, V1.8, V1.9, V1.16
theorem test_decode_rejects :
    rejects [0x1E] .invalidOpcode ∧ rejects [0xFF] .invalidOpcode ∧
      rejects [1] .truncatedInstruction ∧ rejects [1, 0] .truncatedInstruction ∧
      rejects [1, 0, 0x0A, 5] .invalidOpcode ∧ rejects [1, 0, 2, 0x34] .truncatedInstruction ∧
      rejects [0x0A, 0, 4, 0] .truncatedInstruction ∧ rejects [3] .truncatedInstruction ∧
      rejects [0x14, 1, 0x0B] .invalidOpcode := by decide
-- The encoder writes the words it reads (R80, E1)
theorem test_encode_words :
    encode (.vstore 0 (u64 0x0807060504030201)) = [9, 0, 0, 0, 0, 6, 1, 2, 3, 4, 5, 6, 7, 8] ∧
      encode (.vloadr 7 1023) = [0x0C, 7, 0xFF, 3, 0, 0] := by decide
theorem test_tableWord :
    decodeTableWord 8 0x1B = some (.call 0) ∧ decodeTableWord 16 0x0519 = some (.vpushr 5) ∧
      decodeTableWord 8 0x1E = none := by decide

/-! ### One step of a few instructions (rules' examples, V3, V4) -/

-- R141
theorem test_mov : (after (ex (.mov 3 (i16 (-2))) [])).map (·.reg 3) = some (i16 (-2)) ∧
    (after (ex (.mov 3 (i16 (-2))) [])).map (·.ip) = some 5 := by decide
theorem test_mov_bad : errorOf (ex (.mov 8 (u8 1)) []) = some (.execute .invalidRegister) := by decide
-- R142
theorem test_movr : (after (ex (.movr 5 2) [(2, i32 (-7))])).map (fun s => (s.reg 5, s.reg 2)) =
    some (i32 (-7), i32 (-7)) := by decide
-- V3.1, V3.2, V3.4, V3.5
theorem test_cmp_integers :
    (after (ex (.cmp 0 1) [(0, u8 10), (1, u8 8)])).map (fun s => (s.flagEq, s.flagGt)) =
        some (false, true) ∧
      (after (ex (.cmp 0 1) [(0, i8 (-1)), (1, i8 1)])).map (fun s => (s.flagEq, s.flagGt)) =
        some (false, false) ∧
      (after (ex (.cmp 0 1) [(0, u8 255), (1, u8 1)])).map (fun s => (s.flagEq, s.flagGt)) =
        some (false, true) := by decide
-- V3.7, V3.8, V3.9
theorem test_cmp_floats :
    cmpEq (f64 0x8000000000000000) (f64 0) = true ∧
      cmpEq (f32 0x7FC00000) (f32 0x7FC00000) = false ∧ cmpGt (f32 0x7FC00000) (f32 0) = false ∧
      cmpGt (f32 0x7F800000) (f32 0x40400000) = true := by decide +kernel
-- V4.1, V4.2
theorem test_jmp :
    errorOf (ex (.jmp 0) [(0, i8 (-1))]) = some (.execute .invalidJumpTarget) ∧
      (after (ex (.jmp 0) [(0, u8 4)])).map (·.ip) = some 4 ∧
      errorOf (ex (.jmp 0) [(0, u8 5)]) = some (.execute .invalidJumpTarget) := by decide
-- V4.5, V4.6, R154: the jumps before any CMP
theorem test_jumps_at_reset :
    (after (ex (.je 0) [])).map (·.ip) = some 2 ∧
      (after (ex (.jne 4) [(4, u16 3)])).map (·.ip) = some 3 ∧
      (after (ex (.jg 0) [])).map (·.ip) = some 2 ∧
      errorOf (ex (.jl 0) []) = some (.execute .invalidJumpTarget) := by decide
-- R160, R161, R163 with 16 cells
theorem test_store_load :
    ((after (ex (.vstore 15 (u8 42)) [])).bind fun s => (after (exec (.vload 15) s)).map (·.stack)) =
        some [u8 42] ∧
      errorOf (ex (.vload 16) []) = some (.execute .outOfBounds) := by decide
theorem test_storer_loadr :
    ((after (ex (.vstorer 0 1) [(1, i64 (-1))])).bind fun s =>
        (after (exec (.vloadr 7 0) s)).map (·.reg 7)) = some (i64 (-1)) ∧
      errorOf (ex (.vstorer 16 8) []) = some (.execute .invalidRegister) := by decide
-- Storing the reset value leaves no cell listed (log 9)
theorem test_store_reset_value :
    ((after (ex (.vstore 3 (u8 1)) [])).bind fun s =>
      (after (exec (.vstorer 3 0) s)).map (·.heap)) = some [] := by decide

/-! The ALU's vectors (95_test_vectors.md 2.2). -/

def val? (r : Except ExecutionError AluResult) : Option AluResult := r.toOption

def err? (r : Except ExecutionError AluResult) : Option ExecutionError :=
  match r with
  | .ok _ => none
  | .error e => some e

-- V2.2, V2.4, V2.48
theorem test_add : val? (aluAdd (i8 127) (i8 1)) = some (.value (i8 (-128))) ∧
    val? (aluAdd (u64 18446744073709551615) (u64 2)) = some (.value (u64 1)) ∧
    err? (aluAdd (u8 1) (i8 1)) = some .typeMismatch := by decide
theorem test_add_f32 : val? (aluAdd (f32 0x3FC00000) (f32 0x40100000)) =
    some (.value (f32 0x40700000)) := by decide +kernel
-- V2.54: 0.1 + 0.2
theorem test_add_f64 : val? (aluAdd (f64 0x3FB999999999999A) (f64 0x3FC999999999999A)) =
    some (.value (f64 0x3FD3333333333334)) := by decide +kernel
-- V2.6, V2.7, V2.49
theorem test_sub : val? (aluSub (i8 (-128)) (i8 1)) = some (.value (i8 127)) ∧
    val? (aluSub (i16 5) (i16 7)) = some (.value (i16 (-2))) := by decide
-- V2.9, V2.11, V2.12
theorem test_mul : val? (aluMul (i8 (-128)) (i8 (-1))) = some (.value (i8 (-128))) ∧
    val? (aluMul (u32 65536) (u32 65536)) = some (.value (u32 0)) ∧
    val? (aluMul (i32 (-3)) (i32 7)) = some (.value (i32 (-21))) := by decide
-- V2.50
theorem test_mul_f32 : val? (aluMul (f32 0x40400000) (f32 0xBF000000)) =
    some (.value (f32 0xBFC00000)) := by decide +kernel
-- V2.14 to V2.17, V2.20
theorem test_div : val? (aluDiv (i8 (-7)) (i8 2)) = some (.value (i8 (-3))) ∧
    val? (aluDiv (i8 7) (i8 (-2))) = some (.value (i8 (-3))) ∧
    val? (aluDiv (i8 (-128)) (i8 (-1))) = some (.value (i8 (-128))) ∧
    err? (aluDiv (u16 1) (u16 0)) = some .divisionByZero := by decide
-- V2.52, V2.53, V2.55
theorem test_div_float :
    val? (aluDiv (f64 0xBFF0000000000000) (f64 0)) = some (.value (f64 0xFFF0000000000000)) ∧
      val? (aluDiv (f32 0x3F800000) (f32 0x80000000)) = some (.value (f32 0xFF800000)) ∧
      val? (aluDiv (f64 0) (f64 0)) = some (.nan .f64) := by decide +kernel
-- V2.22 to V2.26, V2.45
theorem test_bitwise : val? (aluAnd (u8 0xF0) (u8 0x3C)) = some (.value (u8 0x30)) ∧
    val? (aluOr (u8 0xF0) (u8 0x3C)) = some (.value (u8 0xFC)) ∧
    val? (aluXor (u8 0xF0) (u8 0x3C)) = some (.value (u8 0xCC)) ∧
    val? (aluAnd (i8 (-1)) (i8 5)) = some (.value (i8 5)) ∧
    err? (aluAnd (f32 0x3F800000) (f32 0x3F800000)) = some .typeMismatch := by decide
-- V2.28 to V2.31, V2.33
theorem test_shl : val? (aluShl (u8 0x81) (u8 1)) = some (.value (u8 0x02)) ∧
    val? (aluShl (i8 64) (i8 1)) = some (.value (i8 (-128))) ∧
    val? (aluShl (u8 5) (u8 8)) = some (.value (u8 5)) ∧
    err? (aluShl (u8 5) (u8 0)) = some .divisionByZero := by decide
-- V2.34 to V2.37
theorem test_shr : val? (aluShr (u8 0xF0) (u8 4)) = some (.value (u8 0x0F)) ∧
    val? (aluShr (i8 (-16)) (i8 2)) = some (.value (i8 (-4))) ∧
    val? (aluShr (u8 0x80) (u8 9)) = some (.value (u8 0x40)) ∧
    val? (aluShr (i8 (-128)) (i8 (-1))) = some (.value (i8 (-1))) := by decide
-- R171: the result is pushed, the registers stay
theorem test_add_pushes : (after (ex (.add 0 1) [(0, u8 10), (1, u8 8)])).map
    (fun s => (s.stack, s.reg 0, s.ip)) = some ([u8 18], u8 10, 3) := by decide
-- V4.17
theorem test_add_none : errorOf (ex (.add 0 5) [(0, u8 1)]) = some (.execute .typeMismatch) := by decide

-- R180, R182, E3
theorem test_push_pop :
    ((after (ex (.vpush (u8 7)) [])).bind fun s => (after (exec (.vpop 2) s)).map
        fun t => (t.reg 2, t.stack, t.ip)) = some (u8 7, [], 5) ∧
      errorOf (ex (.vpop 2) []) = some (.execute .stackUnderflow) ∧
      errorOf (ex (.vpop 8) []) = some (.execute .invalidRegister) := by decide
-- R181
theorem test_vpushr : (after (ex (.vpushr 6) [(6, f64 0x4004000000000000)])).map (·.stack) =
    some [f64 0x4004000000000000] := by decide
-- R190, R191
theorem test_call_ret :
    ((after (ex (.call 4) [(4, u8 3)])).map fun s => (s.stack, s.ip)) = some ([u64 2], 3) ∧
      ((after (ex (.call 4) [(4, u8 3)])).bind fun s => (after (exec .ret s)).map
        fun t => (t.stack, t.ip)) = some ([], 2) := by decide
-- V4.9, V4.10: a bad target is not popped
theorem test_ret_faults : errorOf (ex .ret []) = some (.execute .stackUnderflow) ∧
    ((after (ex (.vpush (u8 5)) [])).bind fun s => (after (exec .ret s)).map
      fun t => (t.stack, t.rs)) = some ([u8 5], .faulted (.execute .invalidJumpTarget)) := by decide
-- R200, R201, R202
theorem test_print_halt :
    ((after (ex (.printr 0) [(0, u8 10)])).map (·.out)) = some [u8 10] ∧
      ((after (ex (.printv 0) [])).map (·.out)) = some [Value.empty] ∧
      ((after (ex .halt [])).map fun s => (s.rs, s.ip)) = some (.halted, 0) := by decide
-- R29: a push onto a full bounded stack has no step
theorem test_push_full : exec (.vpush (u8 1)) (full []) = .fault .stackFull := rfl

/-! ### The sequencer and run control -/

-- V4.16, V4.20, V5.2
theorem test_step_end : (after (step (start [] []))).map (·.rs) = some .halted := by decide
theorem test_step_decode_error : errorOf (step (start [0x1E] [])) = some (.decode .invalidOpcode) := by decide
theorem test_run_request : (after (step State.reset)).map (·.rs) = some .running := by decide
theorem test_withFetchWord :
    (after (step (State.reset.withFetchWord 32 0x2A000301))).map (·.reg 3) = some (u8 42) := by decide
theorem test_withFetchWord_here :
    (after (step ({ State.reset with ip := 3 }.withFetchWord 8 0x16))).map (fun s => (s.rs, s.ip)) =
      some (.halted, 3) := by decide

/-! ### Witnesses: each statement's hypotheses can be met, clause by clause -/

/-- R0 = 10, R1 = 8, R2 = 4 (the end of the code), R3 = 5 (beyond it), R4 = -1, R5 = 0, R6 = f32 1.0,
R7 = f32 NaN. -/
def bench : State :=
  start [0, 0, 0, 0] [(0, u8 10), (1, u8 8), (2, u8 4), (3, u8 5), (4, i8 (-1)), (5, u8 0),
    (6, f32 0x3F800000), (7, f32 0x7FC00000)]

theorem witness_DecodeUndoesEncode : (Instr.vstore 5 (u8 42)).wellFormed = true ∧
    IsImmBytes (u16 0x1234) [2, 0x34, 0x12] := ⟨by decide, 2, by decide, by decide⟩

theorem witness_DecodedBytesAreTheEncoding : decodeBytes [0x02, 5, 2] = .ok (.movr 5 2, 3) := rfl

theorem witness_CutEncodingIsTruncated : (Instr.mov 0 (u16 1)).wellFormed = true ∧
    4 < (encode (.mov 0 (u16 1))).length ∧ 0 < (encode (.mov 0 (u16 1))).length := by decide

theorem witness_IllegalBytesAreInvalidOpcode : 30 ≤ (30 : Byte).toNat ∧ 10 ≤ (10 : Byte).toNat ∧
    Instr.ret.wellFormed = true := by decide

theorem witness_StepIsTheSequencerStep :
    (start [] []).rs = .running ∧ (start [] []).params.codeLen ≤ (start [] []).ip ∧
      (start [0x1E] []).ip < (start [0x1E] []).params.codeLen ∧
      decode (start [0x1E] []).params.code 0 = .error .invalidOpcode ∧
      decode bench.params.code bench.ip = .ok (.nop, 1) := ⟨rfl, by decide, by decide, rfl, rfl⟩

theorem witness_RunRequestsStartOnlyIdle :
    State.reset.rs = .idle ∧ bench.rs ≠ .idle ∧ State.reset.halt.rs ≠ .running := by decide

theorem witness_TerminalStateNeverChanges : State.reset.halt.rs.terminal = true := by decide

/-- `JMP R0` at offset 0 with R0 = 0. -/
def selfJump : State := start [0x03, 0x00] [(0, u8 0)]

theorem witness_SelfJumpNeverEnds : selfJump.rs = .running ∧ selfJump.ip < selfJump.params.codeLen ∧
    decode selfJump.params.code selfJump.ip = .ok (.jmp 0, 2) ∧
    (selfJump.reg 0).kind.isInteger = true ∧ val (selfJump.reg 0) = selfJump.ip :=
  ⟨rfl, by decide, rfl, by decide, by decide⟩

theorem bench_inv : bench.Inv where
  codeFits := by decide
  ipInCode := by decide
  flagsExclusive := by decide
  heapCanonical := by decide
  heapInRange := by intro c h; cases h
  stackFits := by intro c h; cases h

theorem witness_StepKeepsInv : bench.Inv ∧ ∃ t, step bench = .next t := ⟨bench_inv, _, rfl⟩

theorem witness_ConstructionMeetsInv : (Params.mk [0x16] 0 Value.empty (some 0)).codeLen < 2 ^ 64 := by
  decide

theorem witness_ConstructionSetsDefaults : ([0x16] : List Byte).length < 2 ^ 64 := by decide

theorem witness_BadRegisterIndexAlwaysRaises : (8 : RegIndex) ∈ (Instr.add 0 8).regOperands ∧
    8 ≤ (8 : RegIndex).toNat ∧ (Instr.add 0 8).wellFormed = true := by decide

theorem witness_OnlyListedErrorsAreRaised : bench.rs = .running ∧ ∃ t,
    exec (.div 0 5) bench = .next t ∧ t.rs = .faulted (.execute .divisionByZero) :=
  ⟨rfl, _, rfl, by decide⟩

theorem witness_FaultingStepChangesNothing : (start [0x1C] []).rs = .running ∧ ∃ t,
    step (start [0x1C] []) = .next t ∧ t.rs = .faulted (.execute .stackUnderflow) :=
  ⟨rfl, _, rfl, by decide⟩

theorem witness_OnlyTheDestinationRegisterChanges : (∃ t, exec (.movr 0 1) bench = .next t) ∧
    (∀ r, (Instr.movr 0 1).destReg? = some r → (7 : Fin 8).val ≠ r.toNat) :=
  ⟨⟨_, rfl⟩, by intro r h; cases h; decide⟩

theorem witness_StackGrowsAndShrinksAsListed : (∃ t, exec (.vpush (u8 1)) bench = .next t) ∧
    (Instr.vpush (u8 1)).pushes = true ∧ AtCapacity (full []) ∧
    (∀ e, ¬raises (.vpush (u8 1)) (unbounded (full [])) e) ∧
    exec (.vpush (u8 1)) (full []) = .fault .stackFull :=
  ⟨⟨_, rfl⟩, rfl, ⟨1, rfl, by decide⟩,
    fun _ h => absurd (congrArg (fun o => (after o).map State.stack) h)
      (by change ¬some [u8 1, u8 7] = some [u8 7]; decide), rfl⟩

theorem witness_OnlyTheStoredCellChanges : (∃ t, exec (.vstore 15 (u8 1)) bench = .next t) ∧
    (Instr.vstore 15 (u8 1)).storeCell? ≠ some 14 ∧ (∃ t, exec .nop bench = .next t) ∧
    Instr.nop.storeCell? = none := ⟨⟨_, rfl⟩, by decide, ⟨_, rfl⟩, rfl⟩

theorem witness_OnlyCmpWritesFlags : (∃ t, exec (.add 0 1) bench = .next t) ∧
    ∀ r1 r2, Instr.add 0 1 ≠ .cmp r1 r2 := ⟨⟨_, rfl⟩, by intro r1 r2 h; cases h⟩

theorem witness_OutputIsAppendedAndNeverRead : (∃ t, step (start [7, 0] []) = .next t) ∧
    ∃ t, exec (.printr 0) bench = .next t := ⟨⟨_, rfl⟩, _, rfl⟩

theorem witness_NoStepChangesTheCode : ∃ t, step bench = .next t := ⟨_, rfl⟩

theorem witness_IpMovesByWidthUnlessTransferred : bench.rs = .running ∧
    (∃ t, exec .nop bench = .next t ∧ Instr.nop.transfersControl = false ∧ t.rs = .running) ∧
    (∃ t, exec .halt bench = .next t ∧ t.rs ≠ .running ∧ t.rs = .halted) :=
  ⟨rfl, ⟨_, rfl, rfl, by decide⟩, ⟨_, rfl, by decide, by decide⟩⟩

theorem witness_EveryStepAnswers : bench.params.stackCapacity = none ∧
    step { full [] with params := { (full []).params with code := [0x19, 0] } } =
      .fault .stackFull := ⟨rfl, rfl⟩

theorem witness_IntegerReadings : (u8 255).kind.isUnsigned = true ∧ (i8 (-128)).kind.isSigned = true := by
  decide

theorem witness_MovWritesTheImmediate : 8 ≤ (8 : RegIndex).toNat ∧ (7 : RegIndex).toNat < 8 ∧
    IsImmBytes (u8 10) [0, 10] := ⟨by decide, by decide, 0, by decide, by decide⟩

theorem witness_MovrCopiesARegister : (8 ≤ (8 : RegIndex).toNat ∨ 8 ≤ (0 : RegIndex).toNat) ∧
    (7 : RegIndex).toNat < 8 := by decide

theorem witness_CmpComparesIntegers : (bench.reg 0).kind = (bench.reg 1).kind ∧
    (bench.reg 0).kind.isInteger = true := by decide

theorem witness_CmpComparesFloats :
    FormatOf .f32 ⟨23, 8⟩ ∧ (bench.reg 6).kind = .f32 ∧ (bench.reg 7).kind = .f32 ∧
      FloatFormat.NotANumber ⟨23, 8⟩ 0x7FC00000 ∧ FloatFormat.Finite ⟨23, 8⟩ 0x3F800000 ∧
      FloatFormat.Finite ⟨23, 8⟩ 0x7F7FFFFF ∧ FloatFormat.Infinite ⟨23, 8⟩ 0x7F800000 ∧
      FloatFormat.Infinite ⟨23, 8⟩ 0xFF800000 := by
  refine ⟨.inl ⟨rfl, rfl⟩, by decide, by decide, ?_, ?_, ?_, ?_, ?_⟩ <;>
    simp [FloatFormat.NotANumber, FloatFormat.Finite, FloatFormat.Infinite, FloatFormat.expField,
      FloatFormat.fracField]

/-- A valid target at the end of the code, one just beyond it, a negative one, a float. -/
theorem witness_JumpsFollowTheirConditions : 8 ≤ (8 : RegIndex).toNat ∧ (2 : RegIndex).toNat < 8 ∧
    bench.flagEq = false ∧ (bench.setFlags true false).flagEq = true ∧
    (bench.setFlags false true).flagGt = true ∧
    ((bench.reg 2).kind.isInteger = true ∧ val (bench.reg 2) = (4 : Nat) ∧ 4 ≤ bench.params.codeLen) ∧
    ¬(val (bench.reg 3) ≤ bench.params.codeLen) ∧ ¬(0 ≤ val (bench.reg 4)) ∧
    (bench.reg 6).kind.isInteger = false := by decide

theorem witness_JumpsAfterCmp : (bench.reg 0).kind = (bench.reg 1).kind ∧
    (bench.reg 0).kind.isInteger = true ∧ (bench.reg 2).kind.isInteger = true ∧
    val (bench.reg 2) = (4 : Nat) ∧ 4 ≤ bench.params.codeLen := by decide

theorem witness_StoresWriteTheAddressedCell : bench.params.heapSize ≤ (16 : HeapAddr).toNat ∧
    (15 : HeapAddr).toNat < bench.params.heapSize ∧
    Heap.wf bench.params.initValue bench.heap = true ∧ 8 ≤ (255 : RegIndex).toNat := by decide

theorem witness_LoadsMoveTheAddressedCell : bench.params.heapSize ≤ (16 : HeapAddr).toNat ∧
    (15 : HeapAddr).toNat < bench.params.heapSize ∧ bench.stackIsFull = false ∧
    (15 : HeapAddr).toNat < (full []).params.heapSize ∧ (full []).stackIsFull = true := by decide

theorem witness_LoadAfterStorePushesTheValue : Heap.wf bench.params.initValue bench.heap = true ∧
    (15 : HeapAddr).toNat < bench.params.heapSize ∧ ∃ t, exec (.vstore 15 (u8 1)) bench = .next t ∧
      t.params = t.params ∧ t.heap = t.heap ∧ t.stackIsFull = false :=
  ⟨by decide, by decide, _, rfl, rfl, rfl, by decide⟩

theorem witness_IntegerAddSubMulWrap : (bench.reg 0).kind.isInteger = true ∧
    (bench.reg 0).kind = (bench.reg 1).kind ∧ bench.stackIsFull = false := by decide

theorem witness_IntegerDivTruncates : (bench.reg 0).kind.isInteger = true ∧
    (bench.reg 0).kind = (bench.reg 5).kind ∧ val (bench.reg 5) = 0 ∧
    (bench.reg 0).kind = (bench.reg 1).kind ∧ val (bench.reg 1) ≠ 0 := by decide

theorem witness_BitwiseActsOnPatterns : (bench.reg 4).kind.isInteger = true ∧
    (bench.reg 4).kind = (bench.reg 4).kind ∧ bench.stackIsFull = false := by decide

theorem witness_ShiftsFillAndWrap : (bench.reg 0).kind.isInteger = true ∧
    (bench.reg 0).kind = (u8 0).kind ∧ uval (u8 0) = 0 ∧ uval (u8 8) ≠ 0 ∧
    (bench.reg 4).kind = (i8 (-1)).kind ∧ bench.stackIsFull = false := by decide

theorem witness_KindDisciplineOfTheAlu : (bench.reg 0).kind ≠ (bench.reg 4).kind ∧
    Kind.isInteger (bench.reg 6).kind = false ∧ Kind.isInteger (bench.reg 0).kind = true := by decide

theorem witness_AluOnlyPushes : (Instr.add 0 8).isAlu = true ∧
    (∃ r ∈ (Instr.add 0 8).regOperands, 8 ≤ r.toNat) ∧ ∃ t, exec (.add 0 1) bench = .next t :=
  ⟨rfl, ⟨8, by decide, by decide⟩, _, rfl⟩

/-- Good operands for each clause at the first and the last register, and a float zero as a divisor. -/
theorem witness_AluIsStuckAtCapacity :
    let s := full [(0, u8 1), (5, f32 0), (6, f32 0), (7, u8 255)]
    AtCapacity s ∧ (s.reg 0).kind = (s.reg 7).kind ∧ (s.reg 0).kind.isInteger = true ∧
      val (s.reg 7) ≠ 0 ∧ (s.reg 5).kind = (s.reg 6).kind ∧ (s.reg 5).kind ≠ .none ∧
      (s.reg 5).kind.isInteger = false ∧ (s.reg 7).kind = (u8 8).kind ∧ uval (u8 8) ≠ 0 :=
  ⟨⟨1, rfl, by decide⟩, by decide⟩

theorem witness_RoundingIsNearestEven : FormatOf .f64 ⟨52, 11⟩ ∧ 0 < 1 :=
  ⟨.inr ⟨rfl, rfl⟩, by decide⟩

/-- R6 = 1.0 and R7 = the pattern given. -/
def floatBench (p q : Nat) : State := start [0, 0, 0, 0] [(6, f32 p), (7, f32 q)]

theorem floatOperands_of (p q : Nat) (hp : p < 2 ^ 32) (hq : q < 2 ^ 32) :
    FloatOperands (floatBench p q) 6 7 .f32 ⟨23, 8⟩ p q where
  format := .inl ⟨rfl, rfl⟩
  lt1 := by decide
  lt2 := by decide
  kind1 := rfl
  kind2 := rfl
  bits1 := Nat.mod_eq_of_lt hp
  bits2 := Nat.mod_eq_of_lt hq
  room := rfl

theorem witness_FloatArithmeticIsCorrectlyRounded :
    FloatOperands (floatBench 0x3F800000 0x00000001) 6 7 .f32 ⟨23, 8⟩ 0x3F800000 0x00000001 ∧
      FloatFormat.Finite ⟨23, 8⟩ 0x3F800000 ∧ FloatFormat.Finite ⟨23, 8⟩ 0x00000001 ∧
      ¬FloatFormat.Zero ⟨23, 8⟩ 0x00000001 := by
  refine ⟨floatOperands_of _ _ (by decide) (by decide), ?_, ?_, ?_⟩ <;>
    simp [FloatFormat.Finite, FloatFormat.Zero, FloatFormat.expField, FloatFormat.fracField]

theorem witness_FloatNaNResultsAreDrawn :
    FloatOperands (floatBench 0x7F800000 0xFF800000) 6 7 .f32 ⟨23, 8⟩ 0x7F800000 0xFF800000 ∧
      FloatOperands (floatBench 0x7F800000 0x7F800000) 6 7 .f32 ⟨23, 8⟩ 0x7F800000 0x7F800000 ∧
      FloatOperands (floatBench 0x7FC00000 0x80000000) 6 7 .f32 ⟨23, 8⟩ 0x7FC00000 0x80000000 ∧
      FloatFormat.NotANumber ⟨23, 8⟩ 0x7FC00000 ∧ FloatFormat.Infinite ⟨23, 8⟩ 0x7F800000 ∧
      FloatFormat.Infinite ⟨23, 8⟩ 0xFF800000 ∧ FloatFormat.Zero ⟨23, 8⟩ 0x80000000 ∧
      FloatFormat.signOf ⟨23, 8⟩ 0x7F800000 ≠ FloatFormat.signOf ⟨23, 8⟩ 0xFF800000 := by
  refine ⟨floatOperands_of _ _ (by decide) (by decide), floatOperands_of _ _ (by decide) (by decide),
    floatOperands_of _ _ (by decide) (by decide), ?_, ?_, ?_, ?_, ?_⟩ <;>
    simp [FloatFormat.NotANumber, FloatFormat.Infinite, FloatFormat.Zero, FloatFormat.expField,
      FloatFormat.fracField, FloatFormat.signOf]

theorem witness_FloatInfinitiesFollowTheirSigns :
    FloatOperands (floatBench 0xFF800000 0x3F800000) 6 7 .f32 ⟨23, 8⟩ 0xFF800000 0x3F800000 ∧
      FloatOperands (floatBench 0x3F800000 0x7F800000) 6 7 .f32 ⟨23, 8⟩ 0x3F800000 0x7F800000 ∧
      FloatOperands (floatBench 0x3F800000 0x80000000) 6 7 .f32 ⟨23, 8⟩ 0x3F800000 0x80000000 ∧
      FloatFormat.Infinite ⟨23, 8⟩ 0xFF800000 ∧ FloatFormat.Infinite ⟨23, 8⟩ 0x7F800000 ∧
      FloatFormat.Finite ⟨23, 8⟩ 0x3F800000 ∧ ¬FloatFormat.Zero ⟨23, 8⟩ 0x3F800000 ∧
      ¬FloatFormat.NotANumber ⟨23, 8⟩ 0x3F800000 ∧ FloatFormat.Zero ⟨23, 8⟩ 0x80000000 := by
  refine ⟨floatOperands_of _ _ (by decide) (by decide), floatOperands_of _ _ (by decide) (by decide),
    floatOperands_of _ _ (by decide) (by decide), ?_, ?_, ?_, ?_, ?_, ?_⟩ <;>
    simp [FloatFormat.NotANumber, FloatFormat.Infinite, FloatFormat.Zero, FloatFormat.Finite,
      FloatFormat.expField, FloatFormat.fracField]

theorem witness_PushesPutTheirOperandOnTop : (full []).stackIsFull = true ∧
    bench.stackIsFull = false ∧ 8 ≤ (8 : RegIndex).toNat := by decide

theorem witness_PopTakesTheTop : bench.stack = [] ∧ (full []).stack = u8 7 :: [] ∧
    8 ≤ (8 : RegIndex).toNat ∧ (7 : RegIndex).toNat < 8 := by decide

theorem witness_PopAfterPushRestoresTheStack : bench.stackIsFull = false ∧
    ∃ t, exec (.vpush (u8 7)) bench = .next t ∧ t.stack = t.stack := ⟨rfl, _, rfl, rfl⟩

theorem witness_CallPushesTheReturnAddress : 8 ≤ (8 : RegIndex).toNat ∧
    ¬(val (bench.reg 3) ≤ bench.params.codeLen) ∧
    ((bench.reg 2).kind.isInteger = true ∧ val (bench.reg 2) = (4 : Nat) ∧ 4 ≤ bench.params.codeLen) ∧
    bench.stackIsFull = false ∧ bench.ip + 2 < 2 ^ 64 ∧
    ((full [(2, u8 4)]).reg 2).kind.isInteger = true ∧ val ((full [(2, u8 4)]).reg 2) = (4 : Nat) ∧
    (full [(2, u8 4)]).stackIsFull = true := by decide

theorem witness_RetPopsAValidTarget : bench.stack = [] ∧
    { bench with stack := [u8 4] }.stack = u8 4 :: [] ∧
    ((u8 4).kind.isInteger = true ∧ val (u8 4) = (4 : Nat) ∧ 4 ≤ bench.params.codeLen) ∧
    ¬(val (u8 5) ≤ bench.params.codeLen) := by decide

theorem witness_ReturnResumesAfterTheCall : bench.rs = .running ∧
    bench.ip + 2 ≤ bench.params.codeLen ∧ bench.params.codeLen < 2 ^ 64 ∧
    ∃ t, exec (.call 2) bench = .next t ∧ t.rs = .running ∧ t.stack = t.stack ∧
      t.params = t.params := ⟨rfl, by decide, by decide, _, rfl, by decide, rfl, rfl⟩

theorem witness_PrintsEmitTheTaggedValue : 8 ≤ (8 : RegIndex).toNat ∧ (7 : RegIndex).toNat < 8 ∧
    bench.params.heapSize ≤ (16 : HeapAddr).toNat ∧ (15 : HeapAddr).toNat < bench.params.heapSize := by
  decide

theorem witness_HaltStopsInPlace : ∃ t, exec .halt bench = .next t := ⟨_, rfl⟩

end Sys2Proof.Tests
end

section
/-! PROOFS. The decoder undoes the encoder: for each field, each format and every instruction (R72 to R80). -/

namespace Sys2Proof.Laws

/-- A tagged immediate of a kind that has a tag reads back, whatever bytes follow it (R72, R73). -/
theorem decodeImm_encodeImm {v : Value} (hv : v.kind ≠ .none) (rest : List Byte) :
    decodeImm (encodeImm v ++ rest) = .ok (v, 1 + v.kind.bytes) := by
  have hlt : v.bits.toNat < 256 ^ v.kind.bytes := two_pow_width v.kind ▸ v.bits.isLt
  simp [encodeImm, decodeImm, kindOfTag_tagOfKind hv, leNat_leBytes, Nat.mod_eq_of_lt hlt,
    ofNat_toNat]

/-- An address field is four bytes that make the address again (R71). -/
theorem exists_encodeAddr_eq (a : HeapAddr) :
    ∃ b0 b1 b2 b3, encodeAddr a = [b0, b1, b2, b3] ∧ addrOfBytes b0 b1 b2 b3 = a := by
  refine ⟨_, _, _, _, rfl, ?_⟩
  change BitVec.ofNat 32 (leNat (encodeAddr a)) = a
  rw [leNat_encodeAddr, BitVec.ofNat_toNat, BitVec.setWidth_eq]

/-! One equation for each format of R74 that has an address or an immediate. -/

theorem decodeFields_ri (mk : RegIndex → Value → Instr) (r : RegIndex) {v : Value}
    (hv : v.kind ≠ .none) (rest : List Byte) :
    decodeFields (.ri mk) (r :: encodeImm v ++ rest) = .ok (mk r v, 3 + v.kind.bytes) := by
  simp [decodeFields, decodeImm_encodeImm hv, Except.map, ← Nat.add_assoc]

theorem decodeFields_i (mk : Value → Instr) {v : Value} (hv : v.kind ≠ .none) (rest : List Byte) :
    decodeFields (.i mk) (encodeImm v ++ rest) = .ok (mk v, 2 + v.kind.bytes) := by
  simp [decodeFields, decodeImm_encodeImm hv, Except.map, ← Nat.add_assoc]

theorem decodeFields_a (mk : HeapAddr → Instr) (a : HeapAddr) (rest : List Byte) :
    decodeFields (.a mk) (encodeAddr a ++ rest) = .ok (mk a, 5) := by
  obtain ⟨b0, b1, b2, b3, hbytes, haddr⟩ := exists_encodeAddr_eq a
  simp [hbytes, decodeFields, haddr]

theorem decodeFields_ai (mk : HeapAddr → Value → Instr) (a : HeapAddr) {v : Value}
    (hv : v.kind ≠ .none) (rest : List Byte) :
    decodeFields (.ai mk) (encodeAddr a ++ encodeImm v ++ rest) =
      .ok (mk a v, 6 + v.kind.bytes) := by
  obtain ⟨b0, b1, b2, b3, hbytes, haddr⟩ := exists_encodeAddr_eq a
  simp [hbytes, decodeFields, haddr, decodeImm_encodeImm hv, Except.map, ← Nat.add_assoc]

theorem decodeFields_ar (mk : HeapAddr → RegIndex → Instr) (a : HeapAddr) (r : RegIndex)
    (rest : List Byte) :
    decodeFields (.ar mk) (encodeAddr a ++ [r] ++ rest) = .ok (mk a r, 6) := by
  obtain ⟨b0, b1, b2, b3, hbytes, haddr⟩ := exists_encodeAddr_eq a
  simp [hbytes, decodeFields, haddr]

theorem decodeFields_ra (mk : RegIndex → HeapAddr → Instr) (r : RegIndex) (a : HeapAddr)
    (rest : List Byte) :
    decodeFields (.ra mk) (r :: encodeAddr a ++ rest) = .ok (mk r a, 6) := by
  obtain ⟨b0, b1, b2, b3, hbytes, haddr⟩ := exists_encodeAddr_eq a
  simp [hbytes, decodeFields, haddr]

/-- A well-formed instruction's immediate is of a kind that has a tag (R73). -/
theorem kind_ne_none_of_wellFormed {i : Instr} {v : Value} (hi : i.wellFormed = true)
    (hv : i.immediate? = some v) : v.kind ≠ .none := by
  simpa [Instr.wellFormed, hv] using hi

/-- Decoding an encoding, whatever bytes follow, gives the instruction and its width (R80). -/
theorem decodeBytes_encode {i : Instr} (hi : i.wellFormed = true) (rest : List Byte) :
    decodeBytes (encode i ++ rest) = .ok (i, i.width) := by
  cases i with
  | nop | halt | ret => rfl
  | jmp r | je r | jne r | jg r | jl r | printr r | vpushr r | vpop r | call r => rfl
  | movr r1 r2 | cmp r1 r2 | add r1 r2 | sub r1 r2 | mul r1 r2 | div r1 r2 | and r1 r2 | or r1 r2
  | xor r1 r2 => rfl
  | mov r v | shr r v | shl r v =>
    exact decodeFields_ri _ r (kind_ne_none_of_wellFormed hi rfl) rest
  | vload a | printv a => exact decodeFields_a _ a rest
  | vstore a v => exact decodeFields_ai _ a (kind_ne_none_of_wellFormed hi rfl) rest
  | vstorer a r => exact decodeFields_ar _ a r rest
  | vloadr r a => exact decodeFields_ra _ r a rest
  | vpush v => exact decodeFields_i _ (kind_ne_none_of_wellFormed hi rfl) rest

end Sys2Proof.Laws
end

section
/-! PROOFS. The execute function's answer, instruction by instruction, apart from what the sequencer makes of
it (R81, R82). -/

namespace Sys2Proof

open Sys2Proof.Machine

/-- `execute(i)` of R81: the state the instruction leaves and its outcome, or why it stops, before the
sequencer writes `ip` or enters the fault. -/
def Instr.effect (i : Instr) (s : State) : Effect :=
  match i with
  | .nop => .ok (s, .fallThrough)
  | .halt => .ok (s, .halt)
  | .mov r imm => do
    let j ← raising (regIndex r)
    return (s.writeReg j imm, .fallThrough)
  | .movr r1 r2 => do
    let j ← raising (regIndex r1)
    let v ← s.readOperand r2
    return (s.writeReg j v, .fallThrough)
  | .cmp r1 r2 => do
    let a ← s.readOperand r1
    let b ← s.readOperand r2
    let (eq, gt) ← raising (cmpFlags a b)
    return (s.setFlags eq gt, .fallThrough)
  | .jmp r => s.jumpIf true r
  | .je r => s.jumpIf s.flagEq r
  | .jne r => s.jumpIf (!s.flagEq) r
  | .jg r => s.jumpIf s.flagGt r
  | .jl r => s.jumpIf (!s.flagGt && !s.flagEq) r
  | .printr r => do
    let v ← s.readOperand r
    return (s.emit v, .fallThrough)
  | .printv a => do
    let v ← s.memRead a
    return (s.emit v, .fallThrough)
  | .vstore a imm => do
    let t ← s.memWrite a imm
    return (t, .fallThrough)
  | .vstorer a r => do
    let v ← s.readOperand r
    let t ← s.memWrite a v
    return (t, .fallThrough)
  | .vload a => do
    let v ← s.memRead a
    let t ← s.push v
    return (t, .fallThrough)
  | .vloadr r a => do
    let j ← raising (regIndex r)
    let v ← s.memRead a
    return (s.writeReg j v, .fallThrough)
  | .add r1 r2 => s.alu2 aluAdd r1 r2
  | .sub r1 r2 => s.alu2 aluSub r1 r2
  | .mul r1 r2 => s.alu2 aluMul r1 r2
  | .div r1 r2 => s.alu2 aluDiv r1 r2
  | .and r1 r2 => s.alu2 aluAnd r1 r2
  | .or r1 r2 => s.alu2 aluOr r1 r2
  | .xor r1 r2 => s.alu2 aluXor r1 r2
  | .shr r imm => s.aluImm aluShr r imm
  | .shl r imm => s.aluImm aluShl r imm
  | .vpush imm => do
    let t ← s.push imm
    return (t, .fallThrough)
  | .vpushr r => do
    let v ← s.readOperand r
    let t ← s.push v
    return (t, .fallThrough)
  | .vpop r => do
    let j ← raising (regIndex r)
    let v ← s.top
    return (s.dropTop.writeReg j v, .fallThrough)
  | .call r => do
    let v ← s.readOperand r
    let d ← raising (jumpTarget s.params.codeLen v)
    let t ← s.push (Value.ofNat .u64 (s.ip + (Instr.call r).width))
    return (t, .jump d)
  | .ret => do
    let v ← s.top
    let d ← raising (jumpTarget s.params.codeLen v)
    return (s.dropTop, .jump d)

/-- Executing an instruction is finishing its effect (R82). -/
theorem exec_eq_finish (i : Instr) (s : State) : exec i s = s.finish i.width (i.effect s) := by
  cases i <;> rfl

variable {i : Instr} {s t : State} {e : ExecutionError} {f : Fault}

theorem raises_of_effect (h : i.effect s = .error (.raise e)) : raises i s e := by
  simp [raises, exec_eq_finish, h]

/-- An instruction is without a step exactly where its effect is stuck. -/
theorem exec_eq_fault : exec i s = .fault f ↔ i.effect s = .error (.stuck f) := by
  rw [exec_eq_finish, finish_eq_fault]

/-- What a next state can be: the fault record of a raised error in the state before, or the state the
instruction left with `ip` and the run state set by the sequencer (R82, R213). -/
theorem effect_of_exec_eq_next (h : exec i s = .next t) :
    (∃ e, i.effect s = .error (.raise e) ∧ t = { s with rs := .faulted (.execute e) }) ∨
      ∃ u flow ip rs, i.effect s = .ok (u, flow) ∧ t = { u with ip := ip, rs := rs } := by
  rw [exec_eq_finish, finish_eq_next] at h
  obtain ⟨e, he, rfl⟩ | ⟨u, he, rfl⟩ | ⟨u, d, he, rfl⟩ | ⟨u, he, rfl⟩ := h
  · exact .inl ⟨e, he, rfl⟩
  · exact .inr ⟨u, _, _, u.rs, he, rfl⟩
  · exact .inr ⟨u, _, _, u.rs, he, rfl⟩
  · exact .inr ⟨u, _, u.ip, _, he, rfl⟩

end Sys2Proof
end

section
/-! PROOFS. A register index of 8 or more (10_state.md R27). -/

namespace Sys2Proof

open Sys2Proof.Machine

variable {i : Instr} {s : State} {r : RegIndex}

/-- Whichever register operand is 8 or more, the instruction raises InvalidRegister: the register
operands are checked before all else (R27, R212). -/
theorem effect_of_bad_regOperand (hr : r ∈ i.regOperands) (hbad : 8 ≤ r.toNat) :
    i.effect s = .error (.raise .invalidRegister) := by
  cases i with
  | nop | halt | ret | vpush | vload | printv | vstore => simp [Instr.regOperands] at hr
  | mov r' | vpop r' | vloadr r' =>
    obtain rfl : r = r' := by simpa [Instr.regOperands] using hr
    simp [Instr.effect, regIndex_of_ge hbad]
  | printr r' | vpushr r' | call r' | vstorer _ r' =>
    obtain rfl : r = r' := by simpa [Instr.regOperands] using hr
    simp [Instr.effect, readOperand_of_ge hbad]
  | jmp r' | je r' | jne r' | jg r' | jl r' =>
    obtain rfl : r = r' := by simpa [Instr.regOperands] using hr
    exact jumpIf_eq_error.mpr (.inl ⟨hbad, rfl⟩)
  | shr r' | shl r' =>
    obtain rfl : r = r' := by simpa [Instr.regOperands] using hr
    exact aluImm_eq_error.mpr (.inl ⟨hbad, rfl⟩)
  | add r1 r2 | sub r1 r2 | mul r1 r2 | div r1 r2 | and r1 r2 | or r1 r2 | xor r1 r2 =>
    refine alu2_eq_error.mpr (.inl ⟨?_, rfl⟩)
    obtain rfl | rfl : r = r1 ∨ r = r2 := by simpa [Instr.regOperands] using hr
    · exact .inl hbad
    · exact .inr hbad
  | movr r1 r2 =>
    obtain rfl | rfl : r = r1 ∨ r = r2 := by simpa [Instr.regOperands] using hr
    · simp [Instr.effect, regIndex_of_ge hbad]
    · by_cases h1 : r1.toNat < 8
      · simp [Instr.effect, regIndex_of_lt h1, readOperand_of_ge hbad]
      · simp [Instr.effect, regIndex_of_ge (Nat.le_of_not_lt h1)]
  | cmp r1 r2 =>
    obtain rfl | rfl : r = r1 ∨ r = r2 := by simpa [Instr.regOperands] using hr
    · simp [Instr.effect, readOperand_of_ge hbad]
    · by_cases h1 : r1.toNat < 8
      · simp [Instr.effect, readOperand_of_lt h1, readOperand_of_ge hbad]
      · simp [Instr.effect, readOperand_of_ge (Nat.le_of_not_lt h1)]

/-- Settles O13: the decoder undoes the encoder for every register byte, and the register operands are
checked before all else. -/
theorem badRegisterIndexAlwaysRaises : Obligations.BadRegisterIndexAlwaysRaises := by
  intro i r hr hbad
  exact ⟨fun hi rest => ⟨i.width, Laws.decodeBytes_encode hi rest⟩,
    fun s => raises_of_effect (effect_of_bad_regOperand hr hbad)⟩

end Sys2Proof
end

section
/-! PROOFS. Which instructions push and pop, and a push at capacity (10_state.md R29). -/

namespace Sys2Proof

open Sys2Proof.Machine Sys2Proof.Claims

variable {i : Instr} {s : State} {x : State × Flow} {e : ExecutionError} {f : Fault}

/-- The end of every push writer outside the ALU. -/
theorem push_bind_eq_ok {v : Value} {flow : Flow} :
    (do let t ← s.push v; return (t, flow) : Effect) = .ok x ↔
      s.stackIsFull = false ∧ x = ({ s with stack := v :: s.stack }, flow) := by
  simp [except_bind_eq_ok, push_eq_ok, eq_comm (b := x)]

theorem push_bind_eq_error {v : Value} {flow : Flow} {p : Stop} :
    (do let t ← s.push v; return (t, flow) : Effect) = .error p ↔
      s.stackIsFull = true ∧ p = .stuck .stackFull := by
  simp [except_bind_eq_error, push_eq_error]

/-- The top is the value the rest of the stack lies under (R28). -/
theorem stack_of_top_eq_ok {v : Value} (h : s.top = .ok v) : s.stack = v :: s.stack.tail :=
  List.eq_cons_of_mem_head? (top_eq_ok.mp h)

/-- A push writer answers only where the stack has room, and then the stack grows by one value. -/
theorem stack_of_effect_of_pushes (hi : i.pushes = true) (h : i.effect s = .ok x) :
    s.stackIsFull = false ∧ ∃ v, x.1.stack = v :: s.stack := by
  cases i with
  | add | sub | mul | div | and | or | xor =>
    obtain ⟨_, _, _, _, hroom, rfl⟩ := alu2_eq_ok.mp h
    exact ⟨hroom, _, rfl⟩
  | shr | shl =>
    obtain ⟨_, _, _, hroom, rfl⟩ := aluImm_eq_ok.mp h
    exact ⟨hroom, _, rfl⟩
  | vpush =>
    obtain ⟨hroom, rfl⟩ := push_bind_eq_ok.mp h
    exact ⟨hroom, _, rfl⟩
  | vload | vpushr =>
    obtain ⟨_, _, h⟩ := except_bind_eq_ok.mp h
    obtain ⟨hroom, rfl⟩ := push_bind_eq_ok.mp h
    exact ⟨hroom, _, rfl⟩
  | call =>
    obtain ⟨_, _, h⟩ := except_bind_eq_ok.mp h
    obtain ⟨_, _, h⟩ := except_bind_eq_ok.mp h
    obtain ⟨hroom, rfl⟩ := push_bind_eq_ok.mp h
    exact ⟨hroom, _, rfl⟩
  | nop | halt | ret | printv | vstore | mov | vpop | vloadr | printr | vstorer | jmp | je | jne
  | jg | jl | movr | cmp => cases hi

/-- A reader that answers takes one value off the stack. -/
theorem stack_of_effect_of_pops (hi : i.pops = true) (h : i.effect s = .ok x) :
    ∃ v, s.stack = v :: x.1.stack := by
  cases i with
  | vpop =>
    obtain ⟨_, _, h⟩ := except_bind_eq_ok.mp h
    obtain ⟨v, hv, h⟩ := except_bind_eq_ok.mp h
    cases h
    exact ⟨v, stack_of_top_eq_ok hv⟩
  | ret =>
    obtain ⟨v, hv, h⟩ := except_bind_eq_ok.mp h
    obtain ⟨_, _, h⟩ := except_bind_eq_ok.mp h
    cases h
    exact ⟨v, stack_of_top_eq_ok hv⟩
  | _ => cases hi

/-- An instruction that is neither a push writer nor a reader leaves the stack alone. -/
theorem stack_of_effect_of_keeps (hpush : i.pushes = false) (hpop : i.pops = false)
    (h : i.effect s = .ok x) : x.1.stack = s.stack := by
  cases i with
  | nop | halt =>
    cases h
    rfl
  | jmp | je | jne | jg | jl =>
    obtain ⟨_, ⟨_, rfl⟩ | ⟨_, _, _, rfl⟩⟩ := jumpIf_eq_ok.mp h <;> rfl
  | mov | printr | printv =>
    obtain ⟨_, _, h⟩ := except_bind_eq_ok.mp h
    cases h
    rfl
  | movr | vloadr =>
    obtain ⟨_, _, h⟩ := except_bind_eq_ok.mp h
    obtain ⟨_, _, h⟩ := except_bind_eq_ok.mp h
    cases h
    rfl
  | cmp =>
    obtain ⟨_, _, h⟩ := except_bind_eq_ok.mp h
    obtain ⟨_, _, h⟩ := except_bind_eq_ok.mp h
    obtain ⟨_, _, h⟩ := except_bind_eq_ok.mp h
    cases h
    rfl
  | vstore =>
    obtain ⟨_, hw, h⟩ := except_bind_eq_ok.mp h
    obtain ⟨_, rfl⟩ := memWrite_eq_ok.mp hw
    cases h
    rfl
  | vstorer =>
    obtain ⟨_, _, h⟩ := except_bind_eq_ok.mp h
    obtain ⟨_, hw, h⟩ := except_bind_eq_ok.mp h
    obtain ⟨_, rfl⟩ := memWrite_eq_ok.mp hw
    cases h
    rfl
  | vpop | ret => cases hpop
  | add | sub | mul | div | and | or | xor | shr | shl | vload | vpush | vpushr | call =>
    cases hpush

/-- Only a push writer is ever stuck, and only on a full stack. -/
theorem pushes_of_effect_stuck (h : i.effect s = .error (.stuck f)) :
    i.pushes = true ∧ s.stackIsFull = true := by
  cases i with
  | add | sub | mul | div | and | or | xor =>
    refine ⟨rfl, ?_⟩
    obtain ⟨_, hp⟩ | ⟨_, _, ⟨_, _, hp⟩ | ⟨_, _, hfull, _⟩⟩ := alu2_eq_error.mp h
    · cases hp
    · cases hp
    · exact hfull
  | shr | shl =>
    refine ⟨rfl, ?_⟩
    obtain ⟨_, hp⟩ | ⟨_, ⟨_, _, hp⟩ | ⟨_, _, hfull, _⟩⟩ := aluImm_eq_error.mp h
    · cases hp
    · cases hp
    · exact hfull
  | vpush => exact ⟨rfl, (push_bind_eq_error.mp h).1⟩
  | vload =>
    obtain hread | ⟨_, _, h⟩ := except_bind_eq_error.mp h
    · cases (memRead_eq_error.mp hread).2
    · exact ⟨rfl, (push_bind_eq_error.mp h).1⟩
  | vpushr =>
    obtain hread | ⟨_, _, h⟩ := except_bind_eq_error.mp h
    · cases (readOperand_eq_error.mp hread).2
    · exact ⟨rfl, (push_bind_eq_error.mp h).1⟩
  | call =>
    obtain hread | ⟨_, _, h⟩ := except_bind_eq_error.mp h
    · cases (readOperand_eq_error.mp hread).2
    · obtain htarget | ⟨_, _, h⟩ := except_bind_eq_error.mp h
      · obtain ⟨_, _, hp⟩ := raising_eq_error.mp htarget
        cases hp
      · exact ⟨rfl, (push_bind_eq_error.mp h).1⟩
  | jmp | je | jne | jg | jl => simp [Instr.effect, jumpIf_eq_error] at h
  | nop | halt | ret | printv | vstore | mov | vpop | vloadr | printr | vstorer | movr | cmp =>
    simp [Instr.effect, except_bind_eq_error, raising_eq_error, readOperand_eq_error,
      memRead_eq_error, memWrite_eq_error, top_eq_error] at h

/-! An unbounded twin has the registers, the cells, the code and the heap size of the state (R28, R29). -/

@[simp] theorem unbounded_reg (j : Fin 8) : (unbounded s).reg j = s.reg j := rfl
@[simp] theorem unbounded_cell (a : Nat) : (unbounded s).cell a = s.cell a := rfl
@[simp] theorem unbounded_codeLen :
    (unbounded s).params.codeLen = s.params.codeLen := rfl
@[simp] theorem unbounded_heapSize : (unbounded s).params.heapSize = s.params.heapSize := rfl

/-- An error is raised with an unbounded stack exactly where it is raised with a bounded one: the checks
come before the push, and capacity has no error of its own (R29). -/
theorem effect_unbounded_raise_iff (hi : i.pushes = true) :
    i.effect (unbounded s) = .error (.raise e) ↔ i.effect s = .error (.raise e) := by
  cases i with
  | add | sub | mul | div | and | or | xor =>
    simp [Instr.effect, alu2_eq_error]
  | shr | shl => simp [Instr.effect, aluImm_eq_error]
  | vload | vpush | vpushr | call =>
    simp [Instr.effect, except_bind_eq_error, memRead_eq_error, memRead_eq_ok,
      readOperand_eq_error, readOperand_eq_ok, raising_eq_error, push_eq_error]
  | nop | halt | ret | printv | vstore | mov | vpop | vloadr | printr | vstorer | jmp | je | jne
  | jg | jl | movr | cmp => cases hi

/-- A push writer raises `e` exactly where its effect does: a completed push has made the stack longer,
so it cannot be mistaken for a fault record. -/
theorem raises_iff_of_pushes (hi : i.pushes = true) :
    raises i s e ↔ i.effect s = .error (.raise e) := by
  refine ⟨fun h => ?_, raises_of_effect⟩
  obtain ⟨e', he, hs⟩ | ⟨u, flow, ip, rs, he, hs⟩ := effect_of_exec_eq_next h
  · obtain rfl : e = e' := by simpa using congrArg State.rs hs
    exact he
  · obtain ⟨_, v, hv⟩ := stack_of_effect_of_pushes hi he
    exact absurd ((congrArg State.stack hs).trans hv).symm (List.cons_ne_self v s.stack)

/-- Capacity neither adds nor hides an error of a push writer (R29). -/
theorem raises_iff_raises_unbounded (hi : i.pushes = true) :
    raises i s e ↔ raises i (unbounded s) e := by
  rw [raises_iff_of_pushes hi, raises_iff_of_pushes hi, effect_unbounded_raise_iff hi]

/-- An instruction that completes without an error changes the stack as R29 lists. -/
theorem stack_of_exec_eq_next {t : State} (h : exec i s = .next t) :
    (∃ e, t = { s with rs := .faulted (.execute e) }) ∨
      (i.pushes = true ∧ ∃ v, t.stack = v :: s.stack) ∨
      (i.pops = true ∧ ∃ v, s.stack = v :: t.stack) ∨
      (i.pushes = false ∧ i.pops = false ∧ t.stack = s.stack) := by
  obtain ⟨e, _, rfl⟩ | ⟨u, flow, ip, rs, he, rfl⟩ := effect_of_exec_eq_next h
  · exact .inl ⟨e, rfl⟩
  · right
    cases hpush : i.pushes with
    | true => exact .inl ⟨rfl, (stack_of_effect_of_pushes hpush he).2⟩
    | false =>
      cases hpop : i.pops with
      | true => exact .inr (.inl ⟨rfl, stack_of_effect_of_pops hpop he⟩)
      | false => exact .inr (.inr ⟨rfl, rfl, stack_of_effect_of_keeps hpush hpop he⟩)

/-- A push writer on a full stack that raises nothing is stuck. -/
theorem exec_of_pushes_of_full (hi : i.pushes = true) (hfull : s.stackIsFull = true)
    (hno : ∀ e, i.effect s ≠ .error (.raise e)) : exec i s = .fault .stackFull := by
  rw [exec_eq_fault]
  match h : i.effect s with
  | .ok x => simp [(stack_of_effect_of_pushes hi h).1] at hfull
  | .error (.raise e) => exact absurd h (hno e)
  | .error (.stuck .stackFull) => rfl

/-- Settles O17: by what each instruction's effect does to the stack, where it is stuck, and that its
errors do not depend on the capacity. -/
theorem stackGrowsAndShrinksAsListed : Obligations.StackGrowsAndShrinksAsListed := by
  refine ⟨fun i s t => stack_of_exec_eq_next, fun i s hi hcap => ?_, fun i s f h => ?_⟩
  · have hfull : s.stackIsFull = true := stackIsFull_iff.mpr hcap
    exact ⟨fun _ => raises_iff_raises_unbounded hi,
      fun hno => exec_of_pushes_of_full hi hfull fun e he =>
        hno e ((raises_iff_raises_unbounded hi).mp (raises_of_effect he))⟩
  · obtain ⟨hi, hfull⟩ := pushes_of_effect_stuck (exec_eq_fault.mp h)
    exact ⟨hi, rfl, stackIsFull_iff.mp hfull⟩

end Sys2Proof
end

section
/-! PROOFS. The state after construction (10_state.md R41). -/

namespace Sys2Proof

open Sys2Proof.Machine

/-- Code below the bound is accepted, with the spec's decisions for the other parameters (R40, D7, D25). -/
theorem new_of_length_lt {code : List Byte} (heapSize : Nat) (h : code.length < 2 ^ 64) :
    State.new code heapSize = .ok (State.construct ⟨code, heapSize, Value.empty, none⟩) := if_pos h

@[simp] theorem reg_construct (p : Params) (j : Fin 8) : (State.construct p).reg j = p.initValue := by
  simp [State.reg, State.construct]

@[simp] theorem cell_construct (p : Params) (a : Nat) :
    (State.construct p).cell a = p.initValue := rfl

/-- Settles O12: the constructed state, field by field. -/
theorem constructionSetsDefaults : Obligations.ConstructionSetsDefaults := fun _ heapSize h =>
  ⟨_, new_of_length_lt heapSize h, rfl, rfl, reg_construct _, rfl, cell_construct _, rfl, rfl, rfl,
    rfl, rfl⟩

end Sys2Proof
end

section
/-! PROOFS. The encoder writes the formats of R74, and decoding gives the length back (30_encoding.md). -/

namespace Sys2Proof.Laws

open Sys2Proof.Claims

/-- The low bytes of a number, each written as a shift of it. -/
theorem leBytes_eq_map (n v : Nat) :
    leBytes n v = (List.range n).map fun j => BitVec.ofNat 8 (v >>> (8 * j)) := by
  induction n generalizing v with
  | zero => rfl
  | succ n ih =>
    rw [leBytes, ih, List.range_succ_eq_map]
    have hshift (j : Nat) : (v / 256) >>> (8 * j) = v >>> (8 * (j + 1)) := by
      rw [Nat.mul_succ, Nat.add_comm, Nat.shiftRight_add, Nat.shiftRight_eq_div_pow v 8]
    simp [hshift]

/-- An address field is the four bytes of the address (R71). -/
theorem encodeAddr_eq_addrBytes (a : HeapAddr) : encodeAddr a = addrBytes a :=
  leBytes_eq_map 4 a.toNat

/-- The encoder's kind tag is the one of R72's table. -/
theorem tagOfKind_of_kindTag {k : Kind} {t : Byte} (h : kindTag k = some t) : tagOfKind k = t := by
  cases k <;> cases h <;> rfl

/-- A tagged-immediate field is the tag and the payload's bytes (R73). -/
theorem encodeImm_of_isImmBytes {v : Value} {bs : List Byte} (h : IsImmBytes v bs) :
    encodeImm v = bs := by
  obtain ⟨t, ht, rfl⟩ := h
  rw [encodeImm, tagOfKind_of_kindTag ht, leBytes_eq_map]
  rfl

/-- The encoder writes the formats of R74 with the opcode bytes of R75. -/
theorem formatTable : FormatTable := by
  refine ⟨⟨rfl, rfl, rfl⟩, fun r => ⟨rfl, rfl, rfl, rfl, rfl, rfl, rfl, rfl, rfl⟩,
    fun r1 r2 => ⟨rfl, rfl, rfl, rfl, rfl, rfl, rfl, rfl, rfl⟩, fun a => ?_, fun a r => ?_,
    fun v bs hv => ?_⟩
  · exact encodeAddr_eq_addrBytes a ▸ ⟨rfl, rfl⟩
  · exact encodeAddr_eq_addrBytes a ▸ ⟨rfl, rfl⟩
  · obtain rfl := encodeImm_of_isImmBytes hv
    exact ⟨fun r => ⟨rfl, rfl, rfl⟩, fun a => encodeAddr_eq_addrBytes a ▸ rfl, rfl⟩

/-- An encoding is as long as the instruction's width (R74, R79). -/
theorem encode_length (i : Instr) : (encode i).length = i.width := by
  cases i <;> simp [encode, Instr.fieldBytes, Instr.width] <;> omega

end Sys2Proof.Laws

namespace Sys2Proof

/-- Settles O1: field by field for the encoder, format by format for the decoder. -/
theorem decodeUndoesEncode : Obligations.DecodeUndoesEncode := by
  refine ⟨Laws.formatTable, fun i rest hi => ?_⟩
  rw [Laws.encode_length]
  exact Laws.decodeBytes_encode hi rest

end Sys2Proof
end

section
/-! PROOFS. The bytes that are InvalidOpcode (30_encoding.md R76). -/

namespace Sys2Proof.Laws

/-- No instruction has an opcode byte of 30 or more (R76). -/
theorem opcodeMap_of_ge {n : Nat} (h : 30 ≤ n) : opcodeMap n = none := by
  obtain ⟨m, rfl⟩ := Nat.exists_eq_add_of_le' h
  rfl

/-- No kind has a tag of 10 or more (R72). -/
theorem kindOfTag_of_ge {n : Nat} (h : 10 ≤ n) : kindOfTag n = none := by
  obtain ⟨m, rfl⟩ := Nat.exists_eq_add_of_le' h
  rfl

theorem decodeBytes_of_bad_opcode {op : Byte} (h : 30 ≤ op.toNat) (rest : List Byte) :
    decodeBytes (op :: rest) = .error .invalidOpcode := by
  simp [decodeBytes, opcodeMap_of_ge h]

theorem decodeImm_of_bad_tag {t : Byte} (h : 10 ≤ t.toNat) (rest : List Byte) :
    decodeImm (t :: rest) = .error .invalidOpcode := by
  simp [decodeImm, kindOfTag_of_ge h]

/-! In the three formats with an immediate, an error of the immediate is the decoder's answer. -/

variable {bs : List Byte} {e : DecodeError}

theorem decodeFields_ri_of_error (h : decodeImm bs = .error e) (mk : RegIndex → Value → Instr)
    (r : RegIndex) : decodeFields (.ri mk) (r :: bs) = .error e := by
  simp [decodeFields, h, Except.map]

theorem decodeFields_ai_of_error (h : decodeImm bs = .error e) (mk : HeapAddr → Value → Instr)
    (b0 b1 b2 b3 : Byte) :
    decodeFields (.ai mk) (b0 :: b1 :: b2 :: b3 :: bs) = .error e := by
  simp [decodeFields, h, Except.map]

theorem decodeFields_i_of_error (h : decodeImm bs = .error e) (mk : Value → Instr) :
    decodeFields (.i mk) bs = .error e := by
  simp [decodeFields, h, Except.map]

end Sys2Proof.Laws

namespace Sys2Proof

open Sys2Proof.Laws

/-- Settles O4: the tables end at 29 and 9, and every well-formed instruction is decoded from its
encoding. -/
theorem illegalBytesAreInvalidOpcode : Obligations.IllegalBytesAreInvalidOpcode := by
  refine ⟨fun op rest h => decodeBytes_of_bad_opcode h rest, fun t rest h => ?_,
    fun i rest hi => ⟨i.width, decodeBytes_encode hi rest⟩⟩
  have himm := decodeImm_of_bad_tag h rest
  exact ⟨fun r => ⟨decodeFields_ri_of_error himm _ r, decodeFields_ri_of_error himm _ r,
      decodeFields_ri_of_error himm _ r⟩,
    decodeFields_ai_of_error himm _, decodeFields_i_of_error himm _⟩

end Sys2Proof
end

section
/-! PROOFS. What the decoder accepts begins with an encoding (30_encoding.md R74 to R77). -/

namespace Sys2Proof

/-- The instructions a format makes, each with the bytes of its operand fields (R74). -/
inductive Layout.Makes : Layout → Instr → List Byte → Prop
  | n (i : Instr) : Makes (.n i) i []
  | r (mk : RegIndex → Instr) (r : RegIndex) : Makes (.r mk) (mk r) [r]
  | rr (mk : RegIndex → RegIndex → Instr) (r1 r2 : RegIndex) :
    Makes (.rr mk) (mk r1 r2) [r1, r2]
  | ri (mk : RegIndex → Value → Instr) (r : RegIndex) {v : Value} (hv : v.kind ≠ .none) :
    Makes (.ri mk) (mk r v) (r :: encodeImm v)
  | a (mk : HeapAddr → Instr) (a : HeapAddr) : Makes (.a mk) (mk a) (encodeAddr a)
  | ai (mk : HeapAddr → Value → Instr) (a : HeapAddr) {v : Value} (hv : v.kind ≠ .none) :
    Makes (.ai mk) (mk a v) (encodeAddr a ++ encodeImm v)
  | ar (mk : HeapAddr → RegIndex → Instr) (a : HeapAddr) (r : RegIndex) :
    Makes (.ar mk) (mk a r) (encodeAddr a ++ [r])
  | ra (mk : RegIndex → HeapAddr → Instr) (r : RegIndex) (a : HeapAddr) :
    Makes (.ra mk) (mk r a) (r :: encodeAddr a)
  | i (mk : Value → Instr) {v : Value} (hv : v.kind ≠ .none) : Makes (.i mk) (mk v) (encodeImm v)

end Sys2Proof

namespace Sys2Proof.Laws

variable {bs : List Byte}

/-- As many bytes as a kind's payload has are the payload of the value they make (R54, R73). -/
theorem encodeImm_ofNat_leNat {k : Kind} (h : bs.length = k.bytes) :
    encodeImm (Value.ofNat k (leNat bs)) = tagOfKind k :: bs := by
  have hlt : leNat bs < 2 ^ k.width := by
    rw [two_pow_width, ← h]
    exact leNat_lt bs
  have hbits : (Value.ofNat k (leNat bs)).bits.toNat = leNat bs := Nat.mod_eq_of_lt hlt
  rw [encodeImm, hbits, show (Value.ofNat k (leNat bs)).kind = k from rfl, ← h, leBytes_leNat]

/-- A tagged immediate that reads is one the encoder writes, of a kind that has a tag (R72, R73). -/
theorem exists_encodeImm_append {x : Value × Nat} (h : decodeImm bs = .ok x) :
    ∃ v tail, v.kind ≠ .none ∧ bs = encodeImm v ++ tail := by
  match bs with
  | [] => cases h
  | t :: rest =>
    rw [decodeImm] at h
    split at h
    · cases h
    · next k hk =>
      split at h
      · cases h
      · next hlen =>
        obtain ⟨rfl, hnone⟩ := tagOfKind_kindOfTag hk
        have htake : (rest.take k.bytes).length = k.bytes :=
          List.length_take_of_le (Nat.le_of_not_lt hlen)
        exact ⟨Value.ofNat k (leNat (rest.take k.bytes)), rest.drop k.bytes, hnone,
          by simp [encodeImm_ofNat_leNat htake]⟩

/-- Any four bytes are the field of the address they make (R71). -/
theorem encodeAddr_addrOfBytes (b0 b1 b2 b3 : Byte) :
    encodeAddr (addrOfBytes b0 b1 b2 b3) = [b0, b1, b2, b3] := by
  have hlt : leNat [b0, b1, b2, b3] < 2 ^ 32 := (leNat_lt _).trans_eq (by norm_num)
  rw [encodeAddr, addrOfBytes, BitVec.toNat_ofNat, Nat.mod_eq_of_lt hlt]
  exact leBytes_leNat [b0, b1, b2, b3]

/-- Reading an immediate and going on with its value succeeds only where the immediate reads. -/
theorem exists_encodeImm_append_of_map {α : Type} {f : Value × Nat → α} {x : α}
    (h : (decodeImm bs).map f = .ok x) : ∃ v tail, v.kind ≠ .none ∧ bs = encodeImm v ++ tail := by
  match hd : decodeImm bs with
  | .error _ => simp [hd, Except.map] at h
  | .ok _ => exact exists_encodeImm_append hd

/-- Operand fields that read are those of an instruction the format makes (R74). -/
theorem exists_makes_of_decodeFields {l : Layout} {x : Instr × Nat}
    (h : decodeFields l bs = .ok x) :
    ∃ i fields tail, l.Makes i fields ∧ bs = fields ++ tail := by
  unfold decodeFields at h
  split at h
  · exact ⟨_, _, _, .n _, rfl⟩
  · exact ⟨_, _, _, .r _ _, rfl⟩
  · exact ⟨_, _, _, .rr _ _ _, rfl⟩
  · obtain ⟨v, tail, hv, rfl⟩ := exists_encodeImm_append_of_map h
    exact ⟨_, _, tail, .ri _ _ hv, rfl⟩
  · exact ⟨_, _, _, .a _ (addrOfBytes _ _ _ _), by rw [encodeAddr_addrOfBytes]; rfl⟩
  · obtain ⟨v, tail, hv, rfl⟩ := exists_encodeImm_append_of_map h
    exact ⟨_, _, tail, .ai _ (addrOfBytes _ _ _ _) hv, by rw [encodeAddr_addrOfBytes]; rfl⟩
  · exact ⟨_, _, _, .ar _ (addrOfBytes _ _ _ _) _, by rw [encodeAddr_addrOfBytes]; rfl⟩
  · exact ⟨_, _, _, .ra _ _ (addrOfBytes _ _ _ _), by rw [encodeAddr_addrOfBytes]; rfl⟩
  · obtain ⟨v, tail, hv, rfl⟩ := exists_encodeImm_append_of_map h
    exact ⟨_, _, tail, .i _ hv, rfl⟩
  · cases h

/-- An instruction that the format of an opcode byte makes is well-formed and encoded as that byte and
the operand fields (R74, R75). -/
theorem encode_of_makes {n : Nat} {l : Layout} {i : Instr} {fields : List Byte}
    (hop : opcodeMap n = some l) (hi : l.Makes i fields) :
    i.wellFormed = true ∧ encode i = BitVec.ofNat 8 n :: fields := by
  have hlt : n < 30 := by
    by_contra hge
    simp [opcodeMap_of_ge (Nat.le_of_not_lt hge)] at hop
  -- Each row of the opcode map fixes the format, and the format the one way to make an instruction.
  interval_cases n <;> cases hop <;> cases hi <;>
    simp [Instr.wellFormed, Instr.immediate?, encode, Instr.opcode, Instr.fieldBytes, *]

/-- What the decoder accepts begins with the encoding of a well-formed instruction. -/
theorem exists_encode_append {x : Instr × Nat} (h : decodeBytes bs = .ok x) :
    ∃ i tail, i.wellFormed = true ∧ bs = encode i ++ tail := by
  match bs with
  | [] => cases h
  | op :: rest =>
    rw [decodeBytes] at h
    split at h
    · cases h
    · next l hop =>
      obtain ⟨i, fields, tail, hmakes, rfl⟩ := exists_makes_of_decodeFields h
      obtain ⟨hi, hbytes⟩ := encode_of_makes hop hmakes
      exact ⟨i, tail, hi, by simp [hbytes]⟩

/-- The decoder accepts the encodings of well-formed instructions, whatever follows, and nothing else;
it answers what was encoded (R77, R80). -/
theorem decodeBytes_eq_ok {x : Instr × Nat} :
    decodeBytes bs = .ok x ↔
      ∃ i tail, i.wellFormed = true ∧ bs = encode i ++ tail ∧ x = (i, i.width) := by
  constructor
  · intro h
    obtain ⟨i, tail, hi, rfl⟩ := exists_encode_append h
    rw [decodeBytes_encode hi] at h
    exact ⟨i, tail, hi, rfl, (Except.ok.inj h).symm⟩
  · rintro ⟨i, tail, hi, rfl, rfl⟩
    exact decodeBytes_encode hi tail

end Sys2Proof.Laws
end

section
/-! PROOFS. The sequencer step (30_encoding.md R82). -/

namespace Sys2Proof

open Sys2Proof.Machine

variable {s : State}

/-- A step while Running is the sequencer's. -/
theorem step_of_running (h : s.rs = .running) : step s = sequencerStep s := by
  simp [step, h]

/-! The three things the sequencer can do (R82). -/

theorem sequencerStep_of_atEnd (h : s.params.codeLen ≤ s.ip) : sequencerStep s = .next s.halt :=
  if_pos (decide_eq_true h)

theorem sequencerStep_of_fetch_error {e : DecodeError} (h : s.ip < s.params.codeLen)
    (hf : s.fetch = .error e) : sequencerStep s = s.raise (.decode e) := by
  simp [sequencerStep, State.atEnd, Nat.not_le.mpr h, hf]

theorem sequencerStep_of_fetch_ok {i : Instr} {w : Nat} (h : s.ip < s.params.codeLen)
    (hf : s.fetch = .ok (i, w)) : sequencerStep s = exec i s := by
  simp [sequencerStep, State.atEnd, Nat.not_le.mpr h, hf]

/-- The decoder's width is the instruction's (R74, R79). -/
theorem width_of_decode {code : List Byte} {ip w : Nat} {i : Instr}
    (h : decode code ip = .ok (i, w)) : w = i.width := by
  obtain ⟨_, _, _, _, hx⟩ := Laws.decodeBytes_eq_ok.mp h
  cases hx
  rfl

/-- Settles O6: by the sequencer's three cases, and that the decoder accepts encodings alone. -/
theorem stepIsTheSequencerStep : Obligations.StepIsTheSequencerStep := by
  intro s hrun
  rw [step_of_running hrun]
  exact ⟨sequencerStep_of_atEnd, fun hip => ⟨fun e hf => sequencerStep_of_fetch_error hip hf,
    fun i w hf => ⟨sequencerStep_of_fetch_ok hip hf, width_of_decode hf⟩⟩,
    fun w t => ⟨rfl, fun d => rfl, rfl, fun e => rfl⟩⟩

end Sys2Proof
end

section
/-! PROOFS. What the ALU functions answer on integers of one kind, as patterns (40_tagged_value_alu.md R116
to R119). -/

namespace Sys2Proof.Machine

variable {a b v : Value} {s : State} {r r1 r2 : RegIndex} {e : ExecutionError}
  {f : Value → Value → Except ExecutionError AluResult}

/-! The pattern of a value made from a number is the number modulo `2^N` (`trunc_N` of R6). -/

@[simp] theorem kind_ofNat (k : Kind) (n : Nat) : (Value.ofNat k n).kind = k := rfl

theorem uval_ofNat (k : Kind) (n : Nat) : uval (Value.ofNat k n) = n % 2 ^ k.width :=
  BitVec.toNat_ofNat n k.width

theorem uval_ofInt (k : Kind) (i : Int) : (uval (Value.ofInt k i) : Int) = i % 2 ^ k.width := by
  rw [uval, Value.ofInt, BitVec.toNat_ofInt, Nat.cast_pow, Nat.cast_ofNat]
  exact Int.toNat_of_nonneg (Int.emod_nonneg i (by positivity))

theorem getLsbD_ofNat {k : Kind} {j : Nat} (n : Nat) (hj : j < k.width) :
    (Value.ofNat k n).bits.getLsbD j = n.testBit j := by
  rw [Value.ofNat, BitVec.getLsbD_ofNat, decide_eq_true hj, Bool.true_and]

/-! A floor of a number by `2^n` is a shift of its pattern: arithmetic for the signed reading, logical for
the unsigned one. -/

theorem ofInt_toInt_div_two_pow {w : Nat} (x : BitVec w) (n : Nat) :
    BitVec.ofInt w (x.toInt / 2 ^ n) = x.sshiftRight n := by
  simp [BitVec.sshiftRight, Int.shiftRight_eq_div_pow]

theorem ofInt_toNat_div_two_pow {w : Nat} (x : BitVec w) (n : Nat) :
    BitVec.ofInt w ((x.toNat : Int) / 2 ^ n) = x >>> n := by
  have hdiv : (x.toNat : Int) / 2 ^ n = ((x.toNat >>> n : Nat) : Int) := by
    simp [Nat.shiftRight_eq_div_pow]
  rw [hdiv, BitVec.ofInt_natCast, ← BitVec.toNat_ushiftRight, BitVec.ofNat_toNat, BitVec.setWidth_eq]

/-- The floor of a value by `2^n` is its pattern moved down by `n` bits, filled with zeros for an
unsigned kind and with the sign bit for a signed one (R119). -/
theorem getLsbD_ofInt_val_div {j : Nat} (n : Nat) (hj : j < a.kind.width) :
    (Value.ofInt a.kind (val a / 2 ^ n)).bits.getLsbD j =
      if j + n < a.kind.width then a.bits.getLsbD (j + n)
      else a.kind.isSigned && a.bits.getLsbD (a.kind.width - 1) := by
  change (BitVec.ofInt a.kind.width (val a / 2 ^ n)).getLsbD j = _
  cases hk : a.kind.isSigned with
  | true =>
    rw [val, if_pos hk, ofInt_toInt_div_two_pow, BitVec.getLsbD_sshiftRight,
      BitVec.msb_eq_getLsbD_last, Nat.add_comm n j]
    simp [hj]
  | false =>
    rw [val, if_neg (by simp [hk]), ofInt_toNat_div_two_pow, BitVec.getLsbD_ushiftRight,
      Nat.add_comm n j]
    split
    · rfl
    · simp [BitVec.getLsbD_of_ge, Nat.le_of_not_lt ‹_›]

/-! The functions on integers of one kind, each with its value. -/

theorem aluAdd_of_integer (h : SameInteger a b) :
    aluAdd a b = .ok (.value (Value.ofInt a.kind (val a + val b))) := by
  simp [aluAdd, checkKinds_of ⟨h.1, numericKind_of_isInteger h.2⟩, not_isFloat_of_isInteger h.2]

theorem aluSub_of_integer (h : SameInteger a b) :
    aluSub a b = .ok (.value (Value.ofInt a.kind (val a - val b))) := by
  simp [aluSub, checkKinds_of ⟨h.1, numericKind_of_isInteger h.2⟩, not_isFloat_of_isInteger h.2]

theorem aluMul_of_integer (h : SameInteger a b) :
    aluMul a b = .ok (.value (Value.ofInt a.kind (val a * val b))) := by
  simp [aluMul, checkKinds_of ⟨h.1, numericKind_of_isInteger h.2⟩, not_isFloat_of_isInteger h.2]

theorem aluDiv_of_integer (h : SameInteger a b) (hb : val b ≠ 0) :
    aluDiv a b = .ok (.value (Value.ofInt a.kind ((val a).tdiv (val b)))) := by
  simp [aluDiv, checkKinds_of ⟨h.1, numericKind_of_isInteger h.2⟩, not_isFloat_of_isInteger h.2, hb]

theorem aluAnd_of_integer (h : SameInteger a b) :
    aluAnd a b = .ok (.value (Value.ofNat a.kind (uval a &&& uval b))) := by
  simp [aluAnd, checkKinds_of h]

theorem aluOr_of_integer (h : SameInteger a b) :
    aluOr a b = .ok (.value (Value.ofNat a.kind (uval a ||| uval b))) := by
  simp [aluOr, checkKinds_of h]

theorem aluXor_of_integer (h : SameInteger a b) :
    aluXor a b = .ok (.value (Value.ofNat a.kind (uval a ^^^ uval b))) := by
  simp [aluXor, checkKinds_of h]

theorem aluShr_of_integer (h : SameInteger a b) (hb : uval b ≠ 0) :
    aluShr a b = .ok (.value (Value.ofInt a.kind (val a / 2 ^ (uval b % a.kind.width)))) := by
  simp [aluShr, checkKinds_of h, shiftAmount, hb, h.1]

theorem aluShl_of_integer (h : SameInteger a b) (hb : uval b ≠ 0) :
    aluShl a b = .ok (.value (Value.ofNat a.kind (uval a * 2 ^ (uval b % a.kind.width)))) := by
  simp [aluShl, checkKinds_of h, shiftAmount, hb, h.1]

/-! The two shapes of the ALU instructions, once their register operands exist (R170, R178, R179). -/

/-- A value answered is pushed, and beside it only `ip` moves. -/
theorem finish_alu2_of_value (h1 : r1.toNat < 8) (h2 : r2.toNat < 8) (hroom : s.stackIsFull = false)
    (hf : f (s.reg ⟨r1.toNat, h1⟩) (s.reg ⟨r2.toNat, h2⟩) = .ok (.value v)) (n : Nat) :
    s.finish n (s.alu2 f r1 r2) = .next { s with stack := v :: s.stack, ip := s.ip + n } := by
  rw [alu2_eq_ok.mpr ⟨h1, h2, _, hf, hroom, rfl⟩]
  rfl

/-- As `finish_alu2_of_value`, for the shifts' shape. -/
theorem finish_aluImm_of_value (h : r.toNat < 8) (hroom : s.stackIsFull = false)
    (hf : f (s.reg ⟨r.toNat, h⟩) b = .ok (.value v)) (n : Nat) :
    s.finish n (s.aluImm f r b) = .next { s with stack := v :: s.stack, ip := s.ip + n } := by
  rw [aluImm_eq_ok.mpr ⟨h, _, hf, hroom, rfl⟩]
  rfl

/-- The two-register shape raises what its function raises. -/
theorem alu2_eq_raise (h1 : r1.toNat < 8) (h2 : r2.toNat < 8) :
    s.alu2 f r1 r2 = .error (.raise e) ↔
      f (s.reg ⟨r1.toNat, h1⟩) (s.reg ⟨r2.toNat, h2⟩) = .error e := by
  simp [alu2_eq_error, h1, h2, Nat.not_le.mpr h1, Nat.not_le.mpr h2]

/-- The shifts' shape raises what its function raises. -/
theorem aluImm_eq_raise (h : r.toNat < 8) :
    s.aluImm f r b = .error (.raise e) ↔ f (s.reg ⟨r.toNat, h⟩) b = .error e := by
  simp [aluImm_eq_error, h, Nat.not_le.mpr h]

end Sys2Proof.Machine
end

section
/-! PROOFS. The ALU on integers of one kind (40_tagged_value_alu.md R116 to R119). -/

namespace Sys2Proof

open Sys2Proof.Machine Sys2Proof.Claims

variable {mk : RegIndex → RegIndex → Instr} {f : Value → Value → Except ExecutionError AluResult}

/-- An instruction of the two-register shape wraps where its function answers `trunc_N` of the exact
result. -/
theorem pushesWrapped_of_alu2 {g : Int → Int → Int}
    (hexec : ∀ r1 r2 s, exec (mk r1 r2) s = s.finish 3 (s.alu2 f r1 r2))
    (hf : ∀ a b, SameInteger a b → f a b = .ok (.value (Value.ofInt a.kind (g (val a) (val b))))) :
    PushesWrapped mk g := by
  intro r1 r2 s h1 h2 hint hkind hroom
  refine ⟨Value.ofInt _ _, rfl, uval_ofInt _ _, ?_⟩
  rw [hexec]
  exact finish_alu2_of_value h1 h2 hroom (hf _ _ ⟨hkind, hint⟩) 3

/-- Settles O35: `add`, `sub` and `mul` truncate the exact result. -/
theorem integerAddSubMulWrap : Obligations.IntegerAddSubMulWrap :=
  ⟨pushesWrapped_of_alu2 (fun _ _ _ => rfl) fun _ _ => aluAdd_of_integer,
    pushesWrapped_of_alu2 (fun _ _ _ => rfl) fun _ _ => aluSub_of_integer,
    pushesWrapped_of_alu2 (fun _ _ _ => rfl) fun _ _ => aluMul_of_integer⟩

/-- Settles O36: a zero divisor is the function's own error, any other divisor gives a truncated
quotient. -/
theorem integerDivTruncates : Obligations.IntegerDivTruncates := by
  intro r1 r2 s h1 h2 hint hkind
  refine ⟨fun hzero => ?_, fun hne hroom => ?_⟩
  · have herr : aluDiv (s.reg ⟨r1.toNat, h1⟩) (s.reg ⟨r2.toNat, h2⟩) = .error .divisionByZero :=
      aluDiv_eq_error.mpr (.inr ⟨⟨hkind, numericKind_of_isInteger hint⟩,
        not_isFloat_of_isInteger hint, hzero, rfl⟩)
    exact raises_of_effect ((alu2_eq_raise h1 h2).mpr herr)
  · exact ⟨Value.ofInt _ _, rfl, uval_ofInt _ _,
      finish_alu2_of_value h1 h2 hroom (aluDiv_of_integer ⟨hkind, hint⟩ hne) 3⟩

/-- An instruction of the two-register shape acts bit by bit where its function answers a number that
does. -/
theorem pushesBitwise_of_alu2 {op : Nat → Nat → Nat} {g : Bool → Bool → Bool}
    (hexec : ∀ r1 r2 s, exec (mk r1 r2) s = s.finish 3 (s.alu2 f r1 r2))
    (hf : ∀ a b, SameInteger a b → f a b = .ok (.value (Value.ofNat a.kind (op (uval a) (uval b)))))
    (hop : ∀ x y j, (op x y).testBit j = g (x.testBit j) (y.testBit j)) : PushesBitwise mk g := by
  intro r1 r2 s h1 h2 hint hkind hroom
  refine ⟨Value.ofNat _ _, rfl, fun j hj => (getLsbD_ofNat _ hj).trans (hop _ _ j), ?_⟩
  rw [hexec]
  exact finish_alu2_of_value h1 h2 hroom (hf _ _ ⟨hkind, hint⟩) 3

/-- Settles O37: by the bits of the natural numbers' `and`, `or` and `xor`. -/
theorem bitwiseActsOnPatterns : Obligations.BitwiseActsOnPatterns :=
  ⟨pushesBitwise_of_alu2 (fun _ _ _ => rfl) (fun _ _ => aluAnd_of_integer) Nat.testBit_and,
    pushesBitwise_of_alu2 (fun _ _ _ => rfl) (fun _ _ => aluOr_of_integer) Nat.testBit_or,
    pushesBitwise_of_alu2 (fun _ _ _ => rfl) (fun _ _ => aluXor_of_integer) Nat.testBit_xor⟩

/-- Settles O38: the amount is checked before the shift, and a floor by a power of two fills as the kind
asks. -/
theorem shiftsFillAndWrap : Obligations.ShiftsFillAndWrap := by
  intro r imm s h hint hkind
  have hsame : SameInteger (s.reg ⟨r.toNat, h⟩) imm := ⟨hkind, hint⟩
  refine ⟨fun hzero => ⟨?_, ?_⟩, fun hne hroom => ⟨?_, ?_⟩⟩
  · exact raises_of_effect ((aluImm_eq_raise h).mpr (aluShl_eq_error.mpr (.inr ⟨hsame, hzero, rfl⟩)))
  · exact raises_of_effect ((aluImm_eq_raise h).mpr (aluShr_eq_error.mpr (.inr ⟨hsame, hzero, rfl⟩)))
  · refine ⟨_, ?_, ?_, finish_aluImm_of_value h hroom (aluShl_of_integer hsame hne) _⟩
    · exact hkind
    · simp only [uval_ofNat, kind_ofNat]
  · refine ⟨_, ?_, fun j => ?_, finish_aluImm_of_value h hroom (aluShr_of_integer hsame hne) _⟩
    · exact hkind
    · intro hj
      exact getLsbD_ofInt_val_div (uval imm % (s.reg ⟨r.toNat, h⟩).kind.width) hj

end Sys2Proof
end

section
/-! PROOFS. When TypeMismatch is raised (40_tagged_value_alu.md R110, R111, R113). -/

namespace Sys2Proof

open Sys2Proof.Machine Sys2Proof.Claims

variable {i : Instr} {s : State} {e : ExecutionError} {r1 r2 : RegIndex} {dom : Kind → Bool}
  {f : Value → Value → Except ExecutionError AluResult}

theorem Instr.width_pos (i : Instr) : 0 < i.width := by
  cases i <;> simp [Instr.width]

/-- An instruction that can only fall through raises `e` exactly where its effect does: one that completes
has moved `ip`, so it cannot be mistaken for a fault record (R82, R213). -/
theorem raises_iff_of_fallThrough (hflow : ∀ x, i.effect s = .ok x → x.2 = .fallThrough) :
    raises i s e ↔ i.effect s = .error (.raise e) := by
  refine ⟨fun h => ?_, raises_of_effect⟩
  rw [raises, exec_eq_finish, finish_eq_next] at h
  obtain ⟨e', he, hs⟩ | ⟨u, _, hs⟩ | ⟨u, d, he, _⟩ | ⟨u, he, _⟩ := h
  · obtain rfl : e = e' := by simpa using congrArg State.rs hs
    exact he
  · have hip : s.ip = s.ip + i.width := congrArg State.ip hs
    have := i.width_pos
    omega
  · cases hflow _ he
  · cases hflow _ he

/-- CMP raises what its comparison raises, once its register operands exist (R151). -/
theorem raises_cmp_iff (h1 : r1.toNat < 8) (h2 : r2.toNat < 8) :
    raises (.cmp r1 r2) s e ↔
      cmpFlags (s.reg ⟨r1.toNat, h1⟩) (s.reg ⟨r2.toNat, h2⟩) = .error e := by
  have hflow (x : State × Flow) (hx : (Instr.cmp r1 r2).effect s = .ok x) : x.2 = .fallThrough := by
    obtain ⟨_, _, hx⟩ := except_bind_eq_ok.mp hx
    obtain ⟨_, _, hx⟩ := except_bind_eq_ok.mp hx
    obtain ⟨_, _, hx⟩ := except_bind_eq_ok.mp hx
    cases hx
    rfl
  rw [raises_iff_of_fallThrough hflow]
  simp [Instr.effect, readOperand_of_lt h1, readOperand_of_lt h2, except_bind_eq_error,
    raising_eq_error]

/-- An ALU instruction of the two-register shape raises what its function raises, once its register
operands exist (R170). -/
theorem raises_iff_of_alu2 (hpush : i.pushes = true) (heff : i.effect s = s.alu2 f r1 r2)
    (h1 : r1.toNat < 8) (h2 : r2.toNat < 8) :
    raises i s e ↔ f (s.reg ⟨r1.toNat, h1⟩) (s.reg ⟨r2.toNat, h2⟩) = .error e := by
  rw [raises_iff_of_pushes hpush, heff, alu2_eq_raise h1 h2]

/-- A shift raises what its function raises, once its register operand exists (R178, R179). -/
theorem raises_iff_of_aluImm {r : RegIndex} {imm : Value} (hpush : i.pushes = true)
    (heff : i.effect s = s.aluImm f r imm) (h : r.toNat < 8) :
    raises i s e ↔ f (s.reg ⟨r.toNat, h⟩) imm = .error e := by
  rw [raises_iff_of_pushes hpush, heff, aluImm_eq_raise h]

/-! A function whose only TypeMismatch is `check`'s decides when its instruction raises it (R113). -/

theorem mismatchOutside_of {α : Type} {mk : RegIndex → RegIndex → Instr}
    {g : Value → Value → Except ExecutionError α}
    (hraises : ∀ r1 r2 s (h1 : r1.toNat < 8) (h2 : r2.toNat < 8), raises (mk r1 r2) s .typeMismatch ↔
      g (s.reg ⟨r1.toNat, h1⟩) (s.reg ⟨r2.toNat, h2⟩) = .error .typeMismatch)
    (hg : ∀ a b, g a b = .error .typeMismatch ↔ ¬(a.kind = b.kind ∧ dom a.kind = true)) :
    MismatchOutside mk dom := by
  intro r1 r2 s h1 h2
  rw [hraises, hg, not_and_or, Bool.not_eq_true]

theorem mismatchOutsideImm_of {mk : RegIndex → Value → Instr}
    (hraises : ∀ r imm s (h : r.toNat < 8), raises (mk r imm) s .typeMismatch ↔
      f (s.reg ⟨r.toNat, h⟩) imm = .error .typeMismatch)
    (hf : ∀ a b, f a b = .error .typeMismatch ↔ ¬(a.kind = b.kind ∧ dom a.kind = true)) :
    MismatchOutsideImm mk dom := by
  intro r imm s h
  rw [hraises, hf, not_and_or, Bool.not_eq_true]

/-- The numeric kinds, written as the kinds but the empty one (R111). -/
theorem numericKind_eq : numericKind = fun k => decide (k ≠ .none) :=
  funext fun _ => Bool.eq_iff_iff.mpr (numericKind_iff.trans decide_eq_true_iff.symm)

/-- CMP and the arithmetic ask for numeric kinds (R111). -/
theorem mismatchOutside_numeric :
    ∀ mk ∈ [Instr.cmp, .add, .sub, .mul, .div], MismatchOutside mk numericKind := by
  simp only [List.forall_mem_cons]
  refine ⟨mismatchOutside_of (fun _ _ _ => raises_cmp_iff) ?_,
    mismatchOutside_of (fun _ _ _ => raises_iff_of_alu2 rfl rfl) ?_,
    mismatchOutside_of (fun _ _ _ => raises_iff_of_alu2 rfl rfl) ?_,
    mismatchOutside_of (fun _ _ _ => raises_iff_of_alu2 rfl rfl) ?_,
    mismatchOutside_of (fun _ _ _ => raises_iff_of_alu2 rfl rfl) ?_, List.forall_mem_nil _⟩
  · simp [cmpFlags_eq_error]
  · simp [aluAdd_eq_error]
  · simp [aluSub_eq_error]
  · simp [aluMul_eq_error]
  · simp [aluDiv_eq_error]

/-- The bitwise functions ask for integer kinds (R111). -/
theorem mismatchOutside_integer :
    ∀ mk ∈ [Instr.and, .or, .xor], MismatchOutside mk Kind.isInteger := by
  simp only [List.forall_mem_cons]
  refine ⟨mismatchOutside_of (fun _ _ _ => raises_iff_of_alu2 rfl rfl) ?_,
    mismatchOutside_of (fun _ _ _ => raises_iff_of_alu2 rfl rfl) ?_,
    mismatchOutside_of (fun _ _ _ => raises_iff_of_alu2 rfl rfl) ?_, List.forall_mem_nil _⟩
  · simp [aluAnd_eq_error]
  · simp [aluOr_eq_error]
  · simp [aluXor_eq_error]

/-- So do the shifts, of the register and the amount (R111). -/
theorem mismatchOutsideImm_integer :
    ∀ mk ∈ [Instr.shr, .shl], MismatchOutsideImm mk Kind.isInteger := by
  simp only [List.forall_mem_cons]
  refine ⟨mismatchOutsideImm_of (fun _ _ _ => raises_iff_of_aluImm rfl rfl) ?_,
    mismatchOutsideImm_of (fun _ _ _ => raises_iff_of_aluImm rfl rfl) ?_, List.forall_mem_nil _⟩
  · simp [aluShr_eq_error]
  · simp [aluShl_eq_error]

/-- Settles O39: an instruction raises what its function raises, and the functions raise TypeMismatch where
`check` does. -/
theorem kindDisciplineOfTheAlu : Obligations.KindDisciplineOfTheAlu :=
  ⟨numericKind_eq ▸ mismatchOutside_numeric, mismatchOutside_integer, mismatchOutsideImm_integer⟩

end Sys2Proof
end

section
/-! PROOFS. NOP, MOV and MOVR (41_register_moves.md R140 to R142). -/

namespace Sys2Proof

open Sys2Proof.Machine

variable {i : Instr} {s : State} {r r1 r2 : RegIndex} {v : Value}

@[simp] theorem reg_setIp (n : Nat) (j : Fin 8) : (s.setIp n).reg j = s.reg j := rfl

/-- An instruction whose effect is one register write moves `ip` by its width and keeps the other
registers and all else (R26, R83). -/
theorem exec_of_effect_writeReg (h : r.toNat < 8)
    (heff : i.effect s = .ok (s.writeReg ⟨r.toNat, h⟩ v, .fallThrough)) :
    ∃ t, exec i s = .next t ∧ t.reg ⟨r.toNat, h⟩ = v ∧
      (∀ j : Fin 8, j.val ≠ r.toNat → t.reg j = s.reg j) ∧
      t = { s with regs := t.regs, ip := s.ip + i.width } := by
  refine ⟨(s.writeReg ⟨r.toNat, h⟩ v).setIp (s.ip + i.width), ?_, ?_, fun j hj => ?_, rfl⟩
  · rw [exec_eq_finish, heff, finish_fallThrough]
  · rw [reg_setIp, State.reg_writeReg_same]
  · rw [reg_setIp, State.reg_writeReg_other s v (Fin.ne_of_val_ne hj)]

theorem effect_mov_of_lt (h : r.toNat < 8) :
    (Instr.mov r v).effect s = .ok (s.writeReg ⟨r.toNat, h⟩ v, .fallThrough) := by
  simp [Instr.effect, regIndex_of_lt h]

theorem effect_movr_of_lt (h1 : r1.toNat < 8) (h2 : r2.toNat < 8) :
    (Instr.movr r1 r2).effect s =
      .ok (s.writeReg ⟨r1.toNat, h1⟩ (s.reg ⟨r2.toNat, h2⟩), .fallThrough) := by
  simp [Instr.effect, regIndex_of_lt h1, readOperand_of_lt h2]

/-- Settles O25: the effect of NOP is the state itself, falling through. -/
theorem nopOnlyMovesOn : Obligations.NopOnlyMovesOn := by
  refine ⟨rfl, fun s => ?_⟩
  have heff : Instr.nop.effect s = .ok (s, .fallThrough) := rfl
  rw [exec_eq_finish, heff, finish_fallThrough]
  rfl

/-- Settles O26: the index is checked, then the effect is one register write. -/
theorem movWritesTheImmediate : Obligations.MovWritesTheImmediate := by
  intro r imm s
  refine ⟨fun bs hbs => ?_, fun hbad => ?_, fun h => exec_of_effect_writeReg h (effect_mov_of_lt h)⟩
  · rw [← Laws.encodeImm_of_isImmBytes hbs]
    rfl
  · exact raises_of_effect (effect_of_bad_regOperand (List.mem_singleton_self r) hbad)

/-- Settles O27: both indices are checked, then the effect is one register write of the value read. -/
theorem movrCopiesARegister : Obligations.MovrCopiesARegister := by
  intro r1 r2 s
  refine ⟨rfl, fun hbad => raises_of_effect ?_,
    fun h1 h2 => exec_of_effect_writeReg h1 (effect_movr_of_lt h1 h2)⟩
  obtain hbad | hbad := hbad
  · exact effect_of_bad_regOperand (by simp [Instr.regOperands]) hbad
  · exact effect_of_bad_regOperand (by simp [Instr.regOperands]) hbad

end Sys2Proof
end

section
/-! PROOFS. The jumps (42_compare_branch.md R150, R152 to R156). -/

namespace Sys2Proof

open Sys2Proof.Machine Sys2Proof.Claims

/-- An instruction of the jumps' shape follows the law of R150: its register index is checked always, its
target only when it is taken, and beside `ip` an effect of that shape changes nothing. -/
theorem jumpLaw_of_jumpIf {mk : RegIndex → Instr} {opcode : Byte} {taken : State → Bool}
    (hencode : ∀ r, encode (mk r) = [opcode, r])
    (hexec : ∀ r s, exec (mk r) s = s.finish 2 (s.jumpIf (taken s) r)) :
    JumpLaw mk opcode taken := by
  intro r s
  have hraises {e : ExecutionError} (he : s.jumpIf (taken s) r = .error (.raise e)) :
      raises (mk r) s e := by
    rw [raises, hexec, he, finish_raise]
  refine ⟨hencode r, fun hbad => hraises (jumpIf_eq_error.mpr (.inl ⟨hbad, rfl⟩)),
    fun h => ⟨fun huntaken => ?_, fun htaken n hint hval hle => ?_, fun htaken hbad => ?_⟩⟩
  · rw [hexec, jumpIf_eq_ok.mpr ⟨h, .inl ⟨huntaken, rfl⟩⟩]
    rfl
  · have htarget := jumpTarget_eq_ok.mpr ⟨hint, hval, hle⟩
    rw [hexec, jumpIf_eq_ok.mpr ⟨h, .inr ⟨htaken, n, htarget, rfl⟩⟩]
    rfl
  · have htarget := jumpTarget_eq_error.mpr ⟨hbad, rfl⟩
    exact hraises (jumpIf_eq_error.mpr (.inr ⟨h, htaken, _, htarget, rfl⟩))

/-- Settles O30: the five jumps are of one shape and differ in their condition alone. -/
theorem jumpsFollowTheirConditions : Obligations.JumpsFollowTheirConditions :=
  ⟨jumpLaw_of_jumpIf (fun _ => rfl) fun _ _ => rfl, jumpLaw_of_jumpIf (fun _ => rfl) fun _ _ => rfl,
    jumpLaw_of_jumpIf (fun _ => rfl) fun _ _ => rfl, jumpLaw_of_jumpIf (fun _ => rfl) fun _ _ => rfl,
    jumpLaw_of_jumpIf (fun _ => rfl) fun _ _ => rfl⟩

end Sys2Proof
end

section
/-! PROOFS. VSTORE, VSTORER, VLOAD and VLOADR (43_heap_access.md R160 to R163). -/

namespace Sys2Proof

open Sys2Proof.Machine

variable {i : Instr} {s : State} {a : HeapAddr} {r : RegIndex} {v : Value}

/-! The two answers of a store's address check (R52, R160). -/

theorem effect_vstore_of_ge (ha : s.params.heapSize ≤ a.toNat) :
    (Instr.vstore a v).effect s = .error (.raise .outOfBounds) := by
  simp [Instr.effect, memWrite_eq_error.mpr ⟨ha, rfl⟩]

theorem effect_vstore_of_lt (ha : a.toNat < s.params.heapSize) :
    (Instr.vstore a v).effect s =
      .ok ({ s with heap := Heap.write s.params.initValue s.heap a.toNat v }, .fallThrough) := by
  simp [Instr.effect, memWrite_eq_ok.mpr ⟨ha, rfl⟩]

/-- With its register operand there, VSTORER does what VSTORE does with the register's value (R162). -/
theorem effect_vstorer_of_lt (h : r.toNat < 8) :
    (Instr.vstorer a r).effect s = (Instr.vstore a (s.reg ⟨r.toNat, h⟩)).effect s := by
  simp [Instr.effect, readOperand_of_lt h]

/-- A store beyond the heap raises OutOfBounds (R160, R162). -/
theorem raises_of_effect_vstore (heff : i.effect s = (Instr.vstore a v).effect s)
    (ha : s.params.heapSize ≤ a.toNat) : raises i s .outOfBounds :=
  raises_of_effect (heff.trans (effect_vstore_of_ge ha))

/-- A store within the heap moves `ip` by its width, sets the addressed cell and keeps the other cells and
all else (R53, R83). -/
theorem exec_of_effect_vstore (heff : i.effect s = (Instr.vstore a v).effect s)
    (ha : a.toNat < s.params.heapSize) (hw : Heap.wf s.params.initValue s.heap = true) :
    ∃ t, exec i s = .next t ∧ t.cell a.toNat = v ∧
      (∀ b, b ≠ a.toNat → t.cell b = s.cell b) ∧
      t = { s with heap := t.heap, ip := s.ip + i.width } := by
  refine ⟨{ s with heap := Heap.write s.params.initValue s.heap a.toNat v, ip := s.ip + i.width },
    ?_, Heap.read_write_same hw, fun b hb => Heap.read_write_other hb, rfl⟩
  rw [exec_eq_finish, heff, effect_vstore_of_lt ha, finish_fallThrough]
  rfl

/-- Settles O32: both stores have one effect, the write of one cell, once a register operand is checked. -/
theorem storesWriteTheAddressedCell : Obligations.StoresWriteTheAddressedCell := by
  refine ⟨fun a imm s => ⟨fun bs hbs => ?_, raises_of_effect_vstore rfl, exec_of_effect_vstore rfl⟩,
    fun a r s => ⟨?_, fun hbad => ?_, fun h => ?_⟩⟩
  · rw [← Laws.encodeImm_of_isImmBytes hbs, ← Laws.encodeAddr_eq_addrBytes]
    rfl
  · rw [← Laws.encodeAddr_eq_addrBytes]
    rfl
  · exact raises_of_effect (effect_of_bad_regOperand (List.mem_singleton_self r) hbad)
  · have heff := effect_vstorer_of_lt (s := s) (a := a) h
    exact ⟨raises_of_effect_vstore heff, exec_of_effect_vstore heff⟩

/-! The two answers of a load's address check (R52). -/

theorem memRead_of_ge (ha : s.params.heapSize ≤ a.toNat) :
    s.memRead a = .error (.raise .outOfBounds) := memRead_eq_error.mpr ⟨ha, rfl⟩

theorem memRead_of_lt (ha : a.toNat < s.params.heapSize) : s.memRead a = .ok (s.cell a.toNat) :=
  memRead_eq_ok.mpr ⟨ha, rfl⟩

/-! The loads, once the address is known to be within the heap or beyond it. -/

theorem effect_vload_of_ge (ha : s.params.heapSize ≤ a.toNat) :
    (Instr.vload a).effect s = .error (.raise .outOfBounds) := by
  simp [Instr.effect, memRead_of_ge ha]

/-- Within the heap VLOAD is VPUSH of the cell (R161). -/
theorem effect_vload_of_lt (ha : a.toNat < s.params.heapSize) :
    (Instr.vload a).effect s = (Instr.vpush (s.cell a.toNat)).effect s := by
  simp [Instr.effect, memRead_of_lt ha]

theorem effect_vloadr_of_ge (h : r.toNat < 8) (ha : s.params.heapSize ≤ a.toNat) :
    (Instr.vloadr r a).effect s = .error (.raise .outOfBounds) := by
  simp [Instr.effect, regIndex_of_lt h, memRead_of_ge ha]

theorem effect_vloadr_of_lt (h : r.toNat < 8) (ha : a.toNat < s.params.heapSize) :
    (Instr.vloadr r a).effect s = .ok (s.writeReg ⟨r.toNat, h⟩ (s.cell a.toNat), .fallThrough) := by
  simp [Instr.effect, regIndex_of_lt h, memRead_of_lt ha]

/-- An instruction whose effect is one push is stuck on a full stack (R29). -/
theorem exec_of_effect_vpush_of_full (heff : i.effect s = (Instr.vpush v).effect s)
    (hfull : s.stackIsFull = true) : exec i s = .fault .stackFull :=
  exec_eq_fault.mpr (heff.trans (push_bind_eq_error.mpr ⟨hfull, rfl⟩))

/-- An instruction whose effect is one push moves `ip` by its width on a stack with room, puts the value on
top and keeps all else (R28, R83). -/
theorem exec_of_effect_vpush_of_room (heff : i.effect s = (Instr.vpush v).effect s)
    (hroom : s.stackIsFull = false) :
    exec i s = .next { s with stack := v :: s.stack, ip := s.ip + i.width } := by
  rw [exec_eq_finish, heff.trans (push_bind_eq_ok.mpr ⟨hroom, rfl⟩), finish_fallThrough]
  rfl

/-- Settles O33: a load's effect is one push or one register write of the cell, once its operands are
checked. -/
theorem loadsMoveTheAddressedCell : Obligations.LoadsMoveTheAddressedCell := by
  refine ⟨fun a s => ⟨?_, fun ha => raises_of_effect (effect_vload_of_ge ha),
      fun ha => exec_of_effect_vpush_of_full (effect_vload_of_lt ha),
      fun ha => exec_of_effect_vpush_of_room (effect_vload_of_lt ha)⟩,
    fun r a s => ⟨?_, fun hbad => ?_, fun h =>
      ⟨fun ha => raises_of_effect (effect_vloadr_of_ge h ha),
        fun ha => exec_of_effect_writeReg h (effect_vloadr_of_lt h ha)⟩⟩⟩
  · rw [← Laws.encodeAddr_eq_addrBytes]
    rfl
  · rw [← Laws.encodeAddr_eq_addrBytes]
    rfl
  · exact raises_of_effect (effect_of_bad_regOperand (List.mem_singleton_self r) hbad)

end Sys2Proof
end

section
/-! PROOFS. VPUSH, VPUSHR and VPOP (45_stack_ops.md R180 to R182). -/

namespace Sys2Proof

open Sys2Proof.Machine

variable {s : State} {r : RegIndex} {v : Value} {rest : List Value}

/-- With its register operand there, VPUSHR does what VPUSH does with the register's value (R181). -/
theorem effect_vpushr_of_lt (h : r.toNat < 8) :
    (Instr.vpushr r).effect s = (Instr.vpush (s.reg ⟨r.toNat, h⟩)).effect s := by
  simp [Instr.effect, readOperand_of_lt h]

/-- Settles O45: both instructions have one effect, a push, once a register operand is checked. -/
theorem pushesPutTheirOperandOnTop : Obligations.PushesPutTheirOperandOnTop := by
  refine ⟨fun imm s => ⟨fun bs hbs => ?_, exec_of_effect_vpush_of_full rfl,
      exec_of_effect_vpush_of_room rfl⟩,
    fun r s => ⟨rfl, fun hbad => ?_, fun h =>
      ⟨exec_of_effect_vpush_of_full (effect_vpushr_of_lt h),
        exec_of_effect_vpush_of_room (effect_vpushr_of_lt h)⟩⟩⟩
  · rw [← Laws.encodeImm_of_isImmBytes hbs]
    rfl
  · exact raises_of_effect (effect_of_bad_regOperand (List.mem_singleton_self r) hbad)

/-! The two answers of VPOP, once its register operand exists (R182). -/

theorem effect_vpop_of_nil (h : r.toNat < 8) (hstack : s.stack = []) :
    (Instr.vpop r).effect s = .error (.raise .stackUnderflow) := by
  simp [Instr.effect, regIndex_of_lt h, top_eq_error.mpr ⟨hstack, rfl⟩]

theorem effect_vpop_of_cons (h : r.toNat < 8) (hstack : s.stack = v :: rest) :
    (Instr.vpop r).effect s =
      .ok (({ s with stack := rest } : State).writeReg ⟨r.toNat, h⟩ v, .fallThrough) := by
  have htop : s.top = .ok v := top_eq_ok.mpr (by rw [hstack, List.head?_cons])
  simp [Instr.effect, regIndex_of_lt h, htop, State.dropTop, hstack]

/-- Settles O46: the index and then the stack are checked; the effect is one register write in the state
without its top. -/
theorem popTakesTheTop : Obligations.PopTakesTheTop := by
  intro r s
  refine ⟨rfl, fun hbad => ?_, fun h =>
    ⟨fun hstack => raises_of_effect (effect_vpop_of_nil h hstack), fun v rest hstack => ?_⟩⟩
  · exact raises_of_effect (effect_of_bad_regOperand (List.mem_singleton_self r) hbad)
  · refine ⟨(({ s with stack := rest } : State).writeReg ⟨r.toNat, h⟩ v).setIp (s.ip + 2),
      ?_, ?_, fun j hj => ?_, rfl⟩
    · rw [exec_eq_finish, effect_vpop_of_cons h hstack, finish_fallThrough]
      rfl
    · rw [reg_setIp, State.reg_writeReg_same]
    · rw [reg_setIp, State.reg_writeReg_other _ v (Fin.ne_of_val_ne hj)]
      rfl

end Sys2Proof
end

section
/-! PROOFS. CALL and RET (46_call_return.md R190, R191). -/

namespace Sys2Proof

open Sys2Proof.Machine

variable {s : State} {r : RegIndex} {v : Value} {rest : List Value} {n : Nat}

/-! The answers of CALL, once its register operand exists: the target is checked before the push (R190). -/

theorem effect_call_of_bad_target (h : r.toNat < 8)
    (htarget : jumpTarget s.params.codeLen (s.reg ⟨r.toNat, h⟩) = .error .invalidJumpTarget) :
    (Instr.call r).effect s = .error (.raise .invalidJumpTarget) := by
  simp [Instr.effect, readOperand_of_lt h, htarget]

theorem effect_call_of_target (h : r.toNat < 8)
    (htarget : jumpTarget s.params.codeLen (s.reg ⟨r.toNat, h⟩) = .ok n) :
    (Instr.call r).effect s =
      (do let t ← s.push (Value.ofNat .u64 (s.ip + 2)); return (t, .jump n) : Effect) := by
  simp [Instr.effect, readOperand_of_lt h, htarget, Instr.width]

/-- A u64 holds every offset below `2^64` (R190, D19). -/
theorem uval_ofNat_u64_of_lt (hn : n < 2 ^ 64) : uval (Value.ofNat .u64 n) = n := by
  rw [uval_ofNat]
  exact Nat.mod_eq_of_lt hn

/-- Settles O48: the index, the target and the room for the return address are checked in this order. -/
theorem callPushesTheReturnAddress : Obligations.CallPushesTheReturnAddress := by
  intro r s
  refine ⟨rfl, fun hbad => ?_, fun h => ⟨fun hbad => ?_, fun n hint hval hle => ?_⟩⟩
  · exact raises_of_effect (effect_of_bad_regOperand (List.mem_singleton_self r) hbad)
  · exact raises_of_effect (effect_call_of_bad_target h (jumpTarget_eq_error.mpr ⟨hbad, rfl⟩))
  · have heff := effect_call_of_target h (jumpTarget_eq_ok.mpr ⟨hint, hval, hle⟩)
    refine ⟨fun hfull => ?_, fun hroom =>
      ⟨Value.ofNat .u64 (s.ip + 2), rfl, uval_ofNat_u64_of_lt, ?_⟩⟩
    · exact exec_eq_fault.mpr (heff.trans (push_bind_eq_error.mpr ⟨hfull, rfl⟩))
    · rw [exec_eq_finish, heff.trans (push_bind_eq_ok.mpr ⟨hroom, rfl⟩), finish_jump]
      rfl

/-! The three answers of RET: the top is checked as a target before it is popped (R191). -/

theorem effect_ret_of_nil (hstack : s.stack = []) :
    Instr.ret.effect s = .error (.raise .stackUnderflow) := by
  simp [Instr.effect, top_eq_error.mpr ⟨hstack, rfl⟩]

theorem top_of_cons (hstack : s.stack = v :: rest) : s.top = .ok v :=
  top_eq_ok.mpr (by rw [hstack, List.head?_cons])

theorem effect_ret_of_bad_target (hstack : s.stack = v :: rest)
    (htarget : jumpTarget s.params.codeLen v = .error .invalidJumpTarget) :
    Instr.ret.effect s = .error (.raise .invalidJumpTarget) := by
  simp [Instr.effect, top_of_cons hstack, htarget]

theorem effect_ret_of_target (hstack : s.stack = v :: rest)
    (htarget : jumpTarget s.params.codeLen v = .ok n) :
    Instr.ret.effect s = .ok ({ s with stack := rest }, .jump n) := by
  simp [Instr.effect, top_of_cons hstack, htarget, State.dropTop, hstack]

/-- Settles O49: an empty stack and then the top's value as a target are checked before the pop. -/
theorem retPopsAValidTarget : Obligations.RetPopsAValidTarget := by
  refine ⟨rfl, fun s => ⟨fun hstack => raises_of_effect (effect_ret_of_nil hstack),
    fun v rest hstack => ⟨fun hbad => ?_, fun n hint hval hle => ?_⟩⟩⟩
  · exact raises_of_effect (effect_ret_of_bad_target hstack (jumpTarget_eq_error.mpr ⟨hbad, rfl⟩))
  · have htarget := jumpTarget_eq_ok.mpr ⟨hint, hval, hle⟩
    rw [exec_eq_finish, effect_ret_of_target hstack htarget, finish_jump]
    rfl

end Sys2Proof
end

section
/-! PROOFS. PRINTR and PRINTV (47_output_halt.md R200, R201). -/

namespace Sys2Proof

open Sys2Proof.Machine

variable {i : Instr} {s : State} {a : HeapAddr} {r : RegIndex} {v : Value}

/-! The prints, once the register is known to exist and the address to be within the heap or beyond it. -/

theorem effect_printr_of_lt (h : r.toNat < 8) :
    (Instr.printr r).effect s = .ok (s.emit (s.reg ⟨r.toNat, h⟩), .fallThrough) := by
  simp [Instr.effect, readOperand_of_lt h]

theorem effect_printv_of_ge (ha : s.params.heapSize ≤ a.toNat) :
    (Instr.printv a).effect s = .error (.raise .outOfBounds) := by
  simp [Instr.effect, memRead_of_ge ha]

theorem effect_printv_of_lt (ha : a.toNat < s.params.heapSize) :
    (Instr.printv a).effect s = .ok (s.emit (s.cell a.toNat), .fallThrough) := by
  simp [Instr.effect, memRead_of_lt ha]

/-- An instruction whose effect is one emission moves `ip` by its width, appends the value to the output
and keeps all else (R83, R200, R201). -/
theorem exec_of_effect_emit (heff : i.effect s = .ok (s.emit v, .fallThrough)) :
    exec i s = .next { s with out := s.out ++ [v], ip := s.ip + i.width } := by
  rw [exec_eq_finish, heff, finish_fallThrough]
  rfl

/-- Settles O51: a print's effect is one emission of the register's or the cell's value, once its operand is
checked. -/
theorem printsEmitTheTaggedValue : Obligations.PrintsEmitTheTaggedValue := by
  refine ⟨fun r s => ⟨rfl, fun hbad => ?_, fun h => exec_of_effect_emit (effect_printr_of_lt h)⟩,
    fun a s => ⟨?_, fun ha => raises_of_effect (effect_printv_of_ge ha),
      fun ha => exec_of_effect_emit (effect_printv_of_lt ha)⟩⟩
  · exact raises_of_effect (effect_of_bad_regOperand (List.mem_singleton_self r) hbad)
  · rw [← Laws.encodeAddr_eq_addrBytes]
    rfl

end Sys2Proof
end

section
/-! PROOFS. A faulting step (60_exceptions.md R213). -/

namespace Sys2Proof

open Sys2Proof.Machine

variable {i : Instr} {s t : State} {x : State × Flow} {e : Error}

/-- No instruction that answers writes the run state: that is left to the sequencer (R81, R82). -/
theorem rs_of_effect_eq_ok (h : i.effect s = .ok x) : x.1.rs = s.rs := by
  cases i with
  | nop | halt =>
    cases h
    rfl
  | jmp | je | jne | jg | jl =>
    obtain ⟨_, ⟨_, rfl⟩ | ⟨_, _, _, rfl⟩⟩ := jumpIf_eq_ok.mp h <;> rfl
  | add | sub | mul | div | and | or | xor =>
    obtain ⟨_, _, _, _, _, rfl⟩ := alu2_eq_ok.mp h
    rfl
  | shr | shl =>
    obtain ⟨_, _, _, _, rfl⟩ := aluImm_eq_ok.mp h
    rfl
  | vpush =>
    obtain ⟨_, rfl⟩ := push_bind_eq_ok.mp h
    rfl
  | vload | vpushr =>
    obtain ⟨_, _, h⟩ := except_bind_eq_ok.mp h
    obtain ⟨_, rfl⟩ := push_bind_eq_ok.mp h
    rfl
  | call =>
    obtain ⟨_, _, h⟩ := except_bind_eq_ok.mp h
    obtain ⟨_, _, h⟩ := except_bind_eq_ok.mp h
    obtain ⟨_, rfl⟩ := push_bind_eq_ok.mp h
    rfl
  | vstore =>
    obtain ⟨_, hw, h⟩ := except_bind_eq_ok.mp h
    obtain ⟨_, rfl⟩ := memWrite_eq_ok.mp hw
    cases h
    rfl
  | vstorer =>
    obtain ⟨_, _, h⟩ := except_bind_eq_ok.mp h
    obtain ⟨_, hw, h⟩ := except_bind_eq_ok.mp h
    obtain ⟨_, rfl⟩ := memWrite_eq_ok.mp hw
    cases h
    rfl
  | mov | printr | printv =>
    obtain ⟨_, _, h⟩ := except_bind_eq_ok.mp h
    cases h
    rfl
  | movr | vloadr | vpop | ret =>
    obtain ⟨_, _, h⟩ := except_bind_eq_ok.mp h
    obtain ⟨_, _, h⟩ := except_bind_eq_ok.mp h
    cases h
    rfl
  | cmp =>
    obtain ⟨_, _, h⟩ := except_bind_eq_ok.mp h
    obtain ⟨_, _, h⟩ := except_bind_eq_ok.mp h
    obtain ⟨_, _, h⟩ := except_bind_eq_ok.mp h
    cases h
    rfl

/-- An instruction executed while Running is Faulted only by raising, and a raise discards what the
instruction did: one that completes stays Running or is Halted (R82, R213). -/
theorem eq_of_exec_of_faulted (hrun : s.rs = .running) (h : exec i s = .next t)
    (ht : t.rs = .faulted e) : t = { s with rs := .faulted e } := by
  rw [exec_eq_finish, finish_eq_next] at h
  obtain ⟨_, _, rfl⟩ | ⟨u, hu, rfl⟩ | ⟨u, _, hu, rfl⟩ | ⟨u, _, rfl⟩ := h
  · rw [← ht]
  · have hkeep : u.rs = s.rs := rs_of_effect_eq_ok hu
    simp [hkeep, hrun] at ht
  · have hkeep : u.rs = s.rs := rs_of_effect_eq_ok hu
    simp [hkeep, hrun] at ht
  · cases ht

/-- Settles O15: of the sequencer's three cases the end of the code is Halted, a decode error is the fault
entry itself, and an instruction is Faulted only by raising. -/
theorem faultingStepChangesNothing : Obligations.FaultingStepChangesNothing := by
  intro s t e hrun h ht
  rw [step_of_running hrun] at h
  by_cases hip : s.ip < s.params.codeLen
  · match hf : s.fetch with
    | .error _ =>
      rw [sequencerStep_of_fetch_error hip hf] at h
      cases h
      rw [← ht]
    | .ok (_, _) =>
      rw [sequencerStep_of_fetch_ok hip hf] at h
      exact eq_of_exec_of_faulted hrun h ht
  · rw [sequencerStep_of_atEnd (Nat.le_of_not_lt hip)] at h
    cases h
    cases ht

end Sys2Proof
end

section
/-! PROOFS. Run requests (70_reset_and_hazards.md R241 to R243). -/

namespace Sys2Proof

open Sys2Proof.Machine

variable {s : State}

/-- A step outside Running is the host's run request (log 4). -/
theorem step_of_not_running (h : s.rs ≠ .running) : step s = .next s.runRequest := by
  unfold step
  split
  · exact absurd ‹_› h
  all_goals rfl

/-- A run request changes the run state at most. -/
theorem exists_runRequest_eq (s : State) : ∃ rs, s.runRequest = { s with rs := rs } := by
  by_cases h : s.rs = .idle
  · exact ⟨_, State.runRequest_idle s h⟩
  · exact ⟨s.rs, State.runRequest_other s h⟩

/-- A Halted or Faulted state is its own next state (R243; log 4). -/
theorem step_of_terminal (h : s.rs.terminal = true) : step s = .next s := by
  have hrun : s.rs ≠ .running := fun hr => by simp [hr, RunState.terminal] at h
  have hidle : s.rs ≠ .idle := fun hr => by simp [hr, RunState.terminal] at h
  rw [step_of_not_running hrun, State.runRequest_other s hidle]

/-- A state that is its own next state is where any number of steps ends (R84, R243). -/
theorem run_of_step_eq_self (h : step s = .next s) (n : Nat) : core.run n s = .next s := by
  induction n with
  | zero => rfl
  | succ n ih =>
    have hstep : core.step s = .next s := h
    simp [Host.Core.run, hstep, ih]

/-- Settles O7: by the cases of the run state. -/
theorem runRequestsStartOnlyIdle : Obligations.RunRequestsStartOnlyIdle := fun s =>
  ⟨s.runRequest_idle, s.runRequest_other, step_of_not_running⟩

/-- Settles O8: a terminal state is its own next state. -/
theorem terminalStateNeverChanges : Obligations.TerminalStateNeverChanges := fun n _ h =>
  run_of_step_eq_self (step_of_terminal h) n

/-- Settles O9: the jump to the offset in its register is a state that is its own next state. -/
theorem selfJumpNeverEnds : Obligations.SelfJumpNeverEnds := by
  intro s r h hrun hip hfetch hint hval n
  refine run_of_step_eq_self ?_ n
  obtain ⟨_, _, hlaw⟩ := jumpsFollowTheirConditions.1 r s
  obtain ⟨_, htaken, _⟩ := hlaw h
  rw [step_of_running hrun, sequencerStep_of_fetch_ok hip hfetch,
    htaken rfl s.ip hint hval hip.le]

/-- Settles O52: HALT's effect is the state itself, and a Halted state is its own next state. -/
theorem haltStopsInPlace : Obligations.HaltStopsInPlace := by
  refine ⟨rfl, fun s => ⟨rfl, fun t h => ?_⟩⟩
  cases h
  exact step_of_terminal rfl

end Sys2Proof
end

section
/-! PROOFS. What the effect of an instruction can be, said once; every frame rule of the machine is
read off it (10_state.md sections 3 to 8). -/

namespace Sys2Proof

open Sys2Proof.Machine

/-- The states and outcomes an instruction that raises nothing can leave, by what it writes. `ip`
and the run state are the sequencer's to write (R81, R82). -/
inductive Instr.Leaves (i : Instr) (s : State) : State × Flow → Prop
  | unchanged : Leaves i s (s, .fallThrough)
  | halted (hi : i = .halt) : Leaves i s (s, .halt)
  | jumped {d : Nat} (hi : i.transfersControl = true) (hd : d ≤ s.params.codeLen) :
    Leaves i s (s, .jump d)
  | returned {d : Nat} (hi : i.transfersControl = true) (hd : d ≤ s.params.codeLen) :
    Leaves i s (s.dropTop, .jump d)
  | called {d : Nat} (v : Value) (hi : i.transfersControl = true) (hd : d ≤ s.params.codeLen)
    (hroom : s.stackIsFull = false) : Leaves i s ({ s with stack := v :: s.stack }, .jump d)
  | pushed (v : Value) (n : Nat) (hroom : s.stackIsFull = false) :
    Leaves i s ({ s with stack := v :: s.stack, nanDraws := n }, .fallThrough)
  | register {r : RegIndex} (h : r.toNat < 8) (v : Value) (hi : i.destReg? = some r) :
    Leaves i s (s.writeReg ⟨r.toNat, h⟩ v, .fallThrough)
  | popped {r : RegIndex} (h : r.toNat < 8) (v : Value) (hi : i.destReg? = some r) :
    Leaves i s (s.dropTop.writeReg ⟨r.toNat, h⟩ v, .fallThrough)
  | stored {a : Nat} (v : Value) (hi : i.storeCell? = some a) (ha : a < s.params.heapSize) :
    Leaves i s ({ s with heap := Heap.write s.params.initValue s.heap a v }, .fallThrough)
  | emitted (v : Value) (hi : (∃ r, i = .printr r) ∨ ∃ a, i = .printv a) :
    Leaves i s (s.emit v, .fallThrough)
  | compared {r1 r2 : RegIndex} (a b : Value) (hi : i = .cmp r1 r2) :
    Leaves i s (s.setFlags (cmpEq a b) (cmpGt a b), .fallThrough)

variable {i : Instr} {s t : State} {x : State × Flow}

/-- A register index that was accepted is that of a register (R27). -/
theorem exists_of_raising_regIndex {r : RegIndex} {j : Fin 8}
    (h : raising (regIndex r) = .ok j) : ∃ h : r.toNat < 8, j = ⟨r.toNat, h⟩ := by
  have hj := regIndex_eq_ok.mp (raising_eq_ok.mp h)
  exact ⟨hj ▸ j.isLt, Fin.ext hj⟩

/-- A jump target that was accepted is within the code or at its end (R150). -/
theorem le_codeLen_of_raising_jumpTarget {v : Value} {n d : Nat}
    (h : raising (jumpTarget n v) = .ok d) : d ≤ n :=
  (jumpTarget_eq_ok.mp (raising_eq_ok.mp h)).2.2

/-- Every instruction that raises nothing leaves what its row of `Instr.Leaves` says. -/
theorem leaves_of_effect (h : i.effect s = .ok x) : i.Leaves s x := by
  cases i with
  | nop =>
    cases h
    exact .unchanged
  | halt =>
    cases h
    exact .halted rfl
  | jmp | je | jne | jg | jl =>
    obtain ⟨_, ⟨_, rfl⟩ | ⟨_, _, hd, rfl⟩⟩ := jumpIf_eq_ok.mp h
    · exact .unchanged
    · exact .jumped rfl (jumpTarget_eq_ok.mp hd).2.2
  | add | sub | mul | div | and | or | xor =>
    obtain ⟨_, _, _, _, hroom, rfl⟩ := alu2_eq_ok.mp h
    exact .pushed _ _ hroom
  | shr | shl =>
    obtain ⟨_, _, _, hroom, rfl⟩ := aluImm_eq_ok.mp h
    exact .pushed _ _ hroom
  | vpush =>
    obtain ⟨hroom, rfl⟩ := push_bind_eq_ok.mp h
    exact .pushed _ _ hroom
  | vload | vpushr =>
    obtain ⟨_, _, h⟩ := except_bind_eq_ok.mp h
    obtain ⟨hroom, rfl⟩ := push_bind_eq_ok.mp h
    exact .pushed _ _ hroom
  | call =>
    obtain ⟨_, _, h⟩ := except_bind_eq_ok.mp h
    obtain ⟨_, hd, h⟩ := except_bind_eq_ok.mp h
    obtain ⟨hroom, rfl⟩ := push_bind_eq_ok.mp h
    exact .called _ rfl (le_codeLen_of_raising_jumpTarget hd) hroom
  | ret =>
    obtain ⟨_, _, h⟩ := except_bind_eq_ok.mp h
    obtain ⟨_, hd, h⟩ := except_bind_eq_ok.mp h
    cases h
    exact .returned rfl (le_codeLen_of_raising_jumpTarget hd)
  | vstore =>
    obtain ⟨_, hw, h⟩ := except_bind_eq_ok.mp h
    obtain ⟨ha, rfl⟩ := memWrite_eq_ok.mp hw
    cases h
    exact .stored _ rfl ha
  | vstorer =>
    obtain ⟨_, _, h⟩ := except_bind_eq_ok.mp h
    obtain ⟨_, hw, h⟩ := except_bind_eq_ok.mp h
    obtain ⟨ha, rfl⟩ := memWrite_eq_ok.mp hw
    cases h
    exact .stored _ rfl ha
  | mov =>
    obtain ⟨_, hr, h⟩ := except_bind_eq_ok.mp h
    obtain ⟨hlt, rfl⟩ := exists_of_raising_regIndex hr
    cases h
    exact .register hlt _ rfl
  | movr | vloadr =>
    obtain ⟨_, hr, h⟩ := except_bind_eq_ok.mp h
    obtain ⟨_, _, h⟩ := except_bind_eq_ok.mp h
    obtain ⟨hlt, rfl⟩ := exists_of_raising_regIndex hr
    cases h
    exact .register hlt _ rfl
  | vpop =>
    obtain ⟨_, hr, h⟩ := except_bind_eq_ok.mp h
    obtain ⟨_, _, h⟩ := except_bind_eq_ok.mp h
    obtain ⟨hlt, rfl⟩ := exists_of_raising_regIndex hr
    cases h
    exact .popped hlt _ rfl
  | printr r =>
    obtain ⟨_, _, h⟩ := except_bind_eq_ok.mp h
    cases h
    exact .emitted _ (.inl ⟨r, rfl⟩)
  | printv a =>
    obtain ⟨_, _, h⟩ := except_bind_eq_ok.mp h
    cases h
    exact .emitted _ (.inr ⟨a, rfl⟩)
  | cmp =>
    obtain ⟨_, _, h⟩ := except_bind_eq_ok.mp h
    obtain ⟨_, _, h⟩ := except_bind_eq_ok.mp h
    obtain ⟨_, hflags, h⟩ := except_bind_eq_ok.mp h
    obtain ⟨_, rfl⟩ := cmpFlags_eq_ok.mp (raising_eq_ok.mp hflags)
    cases h
    exact .compared _ _ rfl

/-- What a next state can be: the fault record of a raised error in the state before, or a state the
instruction leaves, with `ip` and the run state set by the sequencer (R82, R213). -/
theorem leaves_of_exec_eq_next (h : exec i s = .next t) :
    (∃ e, t = { s with rs := .faulted (.execute e) }) ∨
      ∃ u flow ip rs, i.Leaves s (u, flow) ∧ t = { u with ip := ip, rs := rs } := by
  obtain ⟨e, _, rfl⟩ | ⟨u, flow, ip, rs, hu, rfl⟩ := effect_of_exec_eq_next h
  · exact .inl ⟨e, rfl⟩
  · exact .inr ⟨u, flow, ip, rs, leaves_of_effect hu, rfl⟩

/-- A step executes the instruction at `ip`, or else changes nothing but the run state: a run
request, the end of the code, a decode error (R82, R213, R241 to R243). -/
theorem step_eq_next (h : step s = .next t) :
    (∃ rs, t = { s with rs := rs }) ∨ ∃ i w, s.fetch = .ok (i, w) ∧ exec i s = .next t := by
  by_cases hrun : s.rs = .running
  · rw [step_of_running hrun] at h
    by_cases hip : s.ip < s.params.codeLen
    · match hf : s.fetch with
      | .error e =>
        rw [sequencerStep_of_fetch_error hip hf] at h
        cases h
        exact .inl ⟨_, rfl⟩
      | .ok (i, w) =>
        rw [sequencerStep_of_fetch_ok hip hf] at h
        exact .inr ⟨i, w, rfl, h⟩
    · rw [sequencerStep_of_atEnd (Nat.le_of_not_lt hip)] at h
      cases h
      exact .inl ⟨_, rfl⟩
  · rw [step_of_not_running hrun] at h
    cases h
    exact .inl (exists_runRequest_eq s)

end Sys2Proof
end

section
/-! PROOFS. The invariant of constructed instances (10_state.md; 00_scope.md R5). -/

namespace Sys2Proof.Machine

variable {s : State} {n : Nat}

/-! The parts of the state the invariant does not speak of may change, and `ip` within the code. -/

theorem State.Inv.setIp (h : s.Inv) (hn : n ≤ s.params.codeLen) : (s.setIp n).Inv :=
  { h with ipInCode := hn }

theorem State.Inv.setRs (h : s.Inv) (rs : RunState) : ({ s with rs := rs } : State).Inv :=
  { h with }

/-- A stack with room takes one more value (R29). -/
theorem State.Inv.push (h : s.Inv) (hroom : s.stackIsFull = false) (v : Value) (n : Nat) :
    ({ s with stack := v :: s.stack, nanDraws := n } : State).Inv :=
  { h with
    stackFits := fun c hc => by
      have hlt : s.stack.length < c := by
        by_contra hge
        have hfull := (stackIsFull_iff (s := s)).mpr ⟨c, hc, Nat.le_of_not_lt hge⟩
        exact Bool.false_ne_true (hroom.symm.trans hfull)
      exact hlt }

theorem State.Inv.dropTop (h : s.Inv) : s.dropTop.Inv :=
  { h with
    stackFits := fun c hc => by
      have := h.stackFits c hc
      rw [State.dropTop_stack, List.length_tail]
      omega }

theorem State.Inv.writeReg (h : s.Inv) (j : Fin 8) (v : Value) : (s.writeReg j v).Inv := { h with }

theorem State.Inv.emit (h : s.Inv) (v : Value) : (s.emit v).Inv := { h with }

/-- A write below `heap_size` keeps the heap canonical and in range (R30, R53). -/
theorem State.Inv.write (h : s.Inv) {a : Nat} (ha : a < s.params.heapSize) (v : Value) :
    ({ s with heap := Heap.write s.params.initValue s.heap a v } : State).Inv :=
  { h with
    heapCanonical := Heap.wf_write h.heapCanonical
    heapInRange := Heap.write_keys_lt h.heapInRange ha }

/-- No float is both equal to and greater than another (R114). -/
theorem FloatNum.not_eq_and_gt (x y : FloatNum) : ¬(x.eq y = true ∧ x.gt y = true) := by
  cases x <;> cases y <;> simp +contextual [FloatNum.eq, FloatNum.gt]

/-- CMP never finds its operands both equal and greater (R34, R114). -/
theorem not_cmpEq_and_cmpGt (a b : Value) : ¬(cmpEq a b = true ∧ cmpGt a b = true) := by
  unfold cmpEq cmpGt
  split
  · exact FloatNum.not_eq_and_gt _ _
  · simp +contextual

theorem State.Inv.compare (h : s.Inv) (a b : Value) :
    (s.setFlags (cmpEq a b) (cmpGt a b)).Inv :=
  { h with flagsExclusive := not_cmpEq_and_cmpGt a b }

end Sys2Proof.Machine

namespace Sys2Proof

open Sys2Proof.Machine

variable {i : Instr} {s t : State} {x : State × Flow}

/-- Whatever an instruction leaves, before the sequencer writes `ip`, has the invariant. -/
theorem Instr.Leaves.inv (hx : i.Leaves s x) (hs : s.Inv) : x.1.Inv := by
  cases hx with
  | unchanged | halted | jumped => exact hs
  | returned => exact hs.dropTop
  | called v _ _ hroom => exact hs.push hroom v s.nanDraws
  | pushed v n hroom => exact hs.push hroom v n
  | register _ v => exact hs.writeReg _ v
  | popped _ v => exact hs.dropTop.writeReg _ v
  | stored v _ ha => exact hs.write ha v
  | emitted v => exact hs.emit v
  | compared a b => exact hs.compare a b

/-- The configuration is nothing an instruction writes (R36). -/
theorem Instr.Leaves.params (hx : i.Leaves s x) : x.1.params = s.params := by
  cases hx <;> rfl

/-- A jump that is taken ends within the code or at its end (R31, R150). -/
theorem Instr.Leaves.target_le {u : State} {d : Nat} (hx : i.Leaves s (u, .jump d)) :
    d ≤ s.params.codeLen := by
  cases hx <;> assumption

/-- A decoded instruction ends within the code or at its end (R77). -/
theorem width_le_of_fetch {w : Nat} (h : s.fetch = .ok (i, w)) (hip : s.ip ≤ s.params.codeLen) :
    s.ip + i.width ≤ s.params.codeLen := by
  obtain ⟨j, tail, _, hcode, hx⟩ := Laws.decodeBytes_eq_ok.mp h
  cases hx
  have hlen := congrArg List.length hcode
  rw [List.length_drop, List.length_append, Laws.encode_length] at hlen
  have : s.params.codeLen = s.params.code.length := rfl
  omega

/-- An instruction that stands whole in the code keeps the invariant. -/
theorem inv_of_exec_eq_next (hs : s.Inv) (hfit : s.ip + i.width ≤ s.params.codeLen)
    (h : exec i s = .next t) : t.Inv := by
  rw [exec_eq_finish, finish_eq_next] at h
  obtain ⟨e, _, rfl⟩ | ⟨u, hu, rfl⟩ | ⟨u, d, hu, rfl⟩ | ⟨u, hu, rfl⟩ := h
  · exact hs.setRs _
  all_goals have hleaves := leaves_of_effect hu
  · exact (hleaves.inv hs).setIp (hfit.trans_eq (congrArg Params.codeLen hleaves.params).symm)
  · exact (hleaves.inv hs).setIp
      (hleaves.target_le.trans_eq (congrArg Params.codeLen hleaves.params).symm)
  · exact (hleaves.inv hs).setRs _

/-- Settles O10: by what an instruction can leave, each with the part of it that is touched. -/
theorem stepKeepsInv : Obligations.StepKeepsInv := by
  intro s t hs h
  obtain ⟨rs, rfl⟩ | ⟨i, w, hf, hexec⟩ := step_eq_next h
  · exact hs.setRs rs
  · exact inv_of_exec_eq_next hs (width_le_of_fetch hf hs.ipInCode) hexec

/-- Settles O11: the constructed state is at offset 0 with an empty stack and no cell listed. -/
theorem constructionMeetsInv : Obligations.ConstructionMeetsInv := by
  have hconstruct (p : Params) (hp : p.codeLen < 2 ^ 64) : (State.construct p).Inv :=
    { codeFits := hp
      ipInCode := Nat.zero_le _
      flagsExclusive := fun h => Bool.false_ne_true h.1
      heapCanonical := rfl
      heapInRange := List.forall_mem_nil _
      stackFits := fun c _ => Nat.zero_le c }
  exact ⟨hconstruct, hconstruct _ (by decide)⟩

end Sys2Proof
end

section
/-! PROOFS. What each part of the state is written by (10_state.md sections 3, 5, 7 and 8;
20_memory.md sections 1 and 4). -/

namespace Sys2Proof

open Sys2Proof.Machine

variable {i : Instr} {s t : State} {x : State × Flow}

/-- A property the fault entry gives, that what the instruction leaves has, and that does not speak
of `ip` or the run state, is one of every next state (R82, R213). -/
theorem frame_of_exec_eq_next {P : State → Prop} (h : exec i s = .next t) (hs : P s)
    (hleaves : ∀ x, i.Leaves s x → P x.1)
    (hseq : ∀ (u : State) (ip : Nat) (rs : RunState), P u → P { u with ip := ip, rs := rs }) :
    P t := by
  obtain ⟨e, rfl⟩ | ⟨u, flow, ip, rs, hu, rfl⟩ := leaves_of_exec_eq_next h
  · exact hseq s s.ip _ hs
  · exact hseq u ip rs (hleaves _ hu)

/-- Only the destination register is written (R26). -/
theorem Instr.Leaves.reg {j : Fin 8} (hx : i.Leaves s x)
    (hj : ∀ r, i.destReg? = some r → j.val ≠ r.toNat) : x.1.reg j = s.reg j := by
  cases hx with
  | register h v hi => exact s.reg_writeReg_other v (Fin.ne_of_val_ne (hj _ hi))
  | popped h v hi => exact s.dropTop.reg_writeReg_other v (Fin.ne_of_val_ne (hj _ hi))
  | _ => rfl

/-- Settles O16: what the instruction leaves has the other registers of the state before. -/
theorem onlyTheDestinationRegisterChanges : Obligations.OnlyTheDestinationRegisterChanges :=
  fun _ s _ h j hj => frame_of_exec_eq_next (P := fun u => u.reg j = s.reg j) h rfl
    (fun _ hx => hx.reg hj) fun _ _ _ hu => hu

/-- Only a store writes the heap (R52). -/
theorem Instr.Leaves.heap (hx : i.Leaves s x) (hi : i.storeCell? = none) : x.1.heap = s.heap := by
  cases hx with
  | stored v hsome => simp [hi] at hsome
  | _ => rfl

/-- Only the addressed cell is written (R53). -/
theorem Instr.Leaves.cell {a : Nat} (hx : i.Leaves s x) (ha : i.storeCell? ≠ some a) :
    x.1.cell a = s.cell a := by
  cases hx with
  | stored v hi => exact Heap.read_write_other fun hab => ha (hab ▸ hi)
  | _ => rfl

/-- No instruction writes the configuration (R36). -/
theorem params_of_exec_eq_next (h : exec i s = .next t) : t.params = s.params :=
  frame_of_exec_eq_next (P := fun u => u.params = s.params) h rfl (fun _ hx => hx.params)
    fun _ _ _ hu => hu

/-- Settles O18: what the instruction leaves has the configuration and the other cells of the state
before. -/
theorem onlyTheStoredCellChanges : Obligations.OnlyTheStoredCellChanges := fun _ s _ h =>
  ⟨params_of_exec_eq_next h,
    fun hi => frame_of_exec_eq_next (P := fun u => u.heap = s.heap) h rfl (fun _ hx => hx.heap hi)
      fun _ _ _ hu => hu,
    fun a ha => frame_of_exec_eq_next (P := fun u => u.cell a = s.cell a) h rfl
      (fun _ hx => hx.cell ha) fun _ _ _ hu => hu⟩

/-- Only CMP writes the flags (R33). -/
theorem Instr.Leaves.flags (hx : i.Leaves s x) (hi : ∀ r1 r2, i ≠ .cmp r1 r2) :
    x.1.flagEq = s.flagEq ∧ x.1.flagGt = s.flagGt := by
  cases hx with
  | compared _ _ hcmp => exact absurd hcmp (hi _ _)
  | _ => exact ⟨rfl, rfl⟩

/-- Settles O19: what an instruction but CMP leaves has the flags of the state before. -/
theorem onlyCmpWritesFlags : Obligations.OnlyCmpWritesFlags := fun _ s _ h hi =>
  frame_of_exec_eq_next (P := fun u => u.flagEq = s.flagEq ∧ u.flagGt = s.flagGt) h ⟨rfl, rfl⟩
    (fun _ hx => hx.flags hi) fun _ _ _ hu => hu

/-- Settles O21: a step changes the run state alone or executes an instruction, and neither writes
the configuration, which is all the decoder reads. -/
theorem noStepChangesTheCode : Obligations.NoStepChangesTheCode := by
  intro s t h
  have hparams : t.params = s.params := by
    obtain ⟨rs, rfl⟩ | ⟨i, w, _, hexec⟩ := step_eq_next h
    · rfl
    · exact params_of_exec_eq_next hexec
  exact ⟨hparams, fun off => by rw [hparams]⟩

/-- The outcome of an instruction that raises nothing: only a transfer of control jumps, only HALT
halts (R32, R202). -/
theorem Instr.Leaves.flow {u : State} {flow : Flow} (hx : i.Leaves s (u, flow)) :
    flow = .fallThrough ∨ (∃ d, flow = .jump d ∧ i.transfersControl = true) ∨
      (flow = .halt ∧ i = .halt ∧ u = s) := by
  cases hx with
  | halted hi => exact .inr (.inr ⟨rfl, hi, rfl⟩)
  | jumped hi | returned hi | called _ hi => exact .inr (.inl ⟨_, rfl, hi⟩)
  | _ => exact .inl rfl

/-- Settles O22: by the outcomes the sequencer turns into `ip` and run state. -/
theorem ipMovesByWidthUnlessTransferred : Obligations.IpMovesByWidthUnlessTransferred := by
  intro i s t hrun h
  rw [exec_eq_finish, finish_eq_next] at h
  obtain ⟨e, _, rfl⟩ | ⟨u, hu, rfl⟩ | ⟨u, d, hu, rfl⟩ | ⟨u, hu, rfl⟩ := h
  · simp
  · have hrs : u.rs = .running := (rs_of_effect_eq_ok hu).trans hrun
    simp [hrs]
  · have hrs : u.rs = .running := (rs_of_effect_eq_ok hu).trans hrun
    have hi : i.transfersControl = true := by simpa using (leaves_of_effect hu).flow
    simp [hrs, hi]
  · obtain ⟨rfl, rfl⟩ : i = .halt ∧ u = s := by simpa using (leaves_of_effect hu).flow
    simp

/-- Only the prints append to the output, one value each (R37, R200, R201). -/
theorem Instr.Leaves.out (hx : i.Leaves s x) :
    x.1.out = s.out ∨ ∃ v, x.1.out = s.out ++ [v] ∧
      ((∃ r, i = .printr r) ∨ ∃ a, i = .printv a) := by
  cases hx with
  | emitted v hi => exact .inr ⟨v, rfl, hi⟩
  | _ => exact .inl rfl

end Sys2Proof
end

section
/-! PROOFS. The output history is never read (10_state.md section 8, R37). -/

namespace Sys2Proof.Machine

/-- The same state with a longer past: `before` had been emitted before all that was emitted. -/
def State.withPast (before : List Value) (s : State) : State := { s with out := before ++ s.out }

/-- A step's answer with its next state changed. -/
def mapNext (g : State → State) :
    Host.Outcome State Fault Refusal → Host.Outcome State Fault Refusal
  | .next s => .next (g s)
  | .fault f => .fault f
  | .refused r => .refused r

variable {past : List Value} {s t : State} {g : State → State}

theorem mapNext_eq_next {o : Host.Outcome State Fault Refusal} (h : mapNext g o = .next t) :
    ∃ u, o = .next u ∧ g u = t := by
  cases o with
  | next u => exact ⟨u, rfl, Host.Outcome.next.inj h⟩
  | fault | refused => cases h

/-- An effect with its state changed. -/
def mapLeft (g : State → State) : Effect → Effect := Except.map fun x => (g x.1, x.2)

/-! Every operation reads the same with another past, which is true by definition, and what it
writes has that past. -/

theorem push_withPast (v : Value) :
    (s.withPast past).push v = (s.push v).map (State.withPast past) := by
  have hfull : (s.withPast past).stackIsFull = s.stackIsFull := rfl
  unfold State.push
  rw [hfull]
  split <;> rfl

theorem memWrite_withPast (a : HeapAddr) (v : Value) :
    (s.withPast past).memWrite a v = (s.memWrite a v).map (State.withPast past) := by
  have hsize : (s.withPast past).params = s.params := rfl
  unfold State.memWrite
  rw [hsize]
  split <;> rfl

theorem emit_withPast (v : Value) : (s.withPast past).emit v = (s.emit v).withPast past := by
  simp [State.emit, State.withPast]

/-- An effect that reads a value first is that of another past if what follows is. -/
theorem bind_withPast {α : Type} (m : Except Stop α) {k k' : α → Effect}
    (h : ∀ a, k' a = mapLeft (State.withPast past) (k a)) :
    (m >>= k') = mapLeft (State.withPast past) (m >>= k) := by
  cases m with
  | error => rfl
  | ok a => exact h a

/-- So is one that changes the state first. -/
theorem map_bind_withPast (m : Except Stop State) {k k' : State → Effect}
    (h : ∀ u, k' (u.withPast past) = mapLeft (State.withPast past) (k u)) :
    (m.map (State.withPast past) >>= k') = mapLeft (State.withPast past) (m >>= k) := by
  cases m with
  | error => rfl
  | ok u => exact h u

theorem jumpIf_withPast (taken : Bool) (r : RegIndex) :
    (s.withPast past).jumpIf taken r = mapLeft (State.withPast past) (s.jumpIf taken r) := by
  refine bind_withPast (s.readOperand r) fun v => ?_
  cases taken with
  | false => rfl
  | true => exact bind_withPast (raising (jumpTarget s.params.codeLen v)) fun _ => rfl

theorem pushResult_withPast (res : AluResult) :
    (s.withPast past).pushResult res = mapLeft (State.withPast past) (s.pushResult res) := by
  have hvalue : (s.withPast past).resultValue res = s.resultValue res := by cases res <;> rfl
  unfold State.pushResult
  rw [hvalue, push_withPast]
  exact map_bind_withPast _ fun _ => rfl

theorem finish_withPast (n : Nat) (e : Effect) :
    (s.withPast past).finish n (mapLeft (State.withPast past) e) =
      mapNext (State.withPast past) (s.finish n e) := by
  rcases e with (_ | _) | ⟨_, (_ | _ | _)⟩ <;> rfl

end Sys2Proof.Machine

namespace Sys2Proof

open Sys2Proof.Machine

variable {past : List Value} {s t : State}

/-- An instruction does the same whatever was emitted before (R37). -/
theorem effect_withPast (i : Instr) (s : State) (past : List Value) :
    i.effect (s.withPast past) = mapLeft (State.withPast past) (i.effect s) := by
  cases i with
  | nop | halt => rfl
  | jmp | je | jne | jg | jl => exact jumpIf_withPast _ _
  | add r1 r2 | sub r1 r2 | mul r1 r2 | div r1 r2 | and r1 r2 | or r1 r2 | xor r1 r2 =>
    exact bind_withPast (s.readOperand r1) fun a => bind_withPast (s.readOperand r2) fun b =>
      bind_withPast (raising _) fun res => pushResult_withPast res
  | shr r | shl r =>
    exact bind_withPast (s.readOperand r) fun a =>
      bind_withPast (raising _) fun res => pushResult_withPast res
  | mov r => exact bind_withPast (raising (regIndex r)) fun _ => rfl
  | movr r1 r2 =>
    exact bind_withPast (raising (regIndex r1)) fun _ =>
      bind_withPast (s.readOperand r2) fun _ => rfl
  | cmp r1 r2 =>
    exact bind_withPast (s.readOperand r1) fun _ => bind_withPast (s.readOperand r2) fun _ =>
      bind_withPast (raising _) fun _ => rfl
  | printr r =>
    refine bind_withPast (s.readOperand r) fun v => ?_
    rw [emit_withPast]
    rfl
  | printv a =>
    refine bind_withPast (s.memRead a) fun v => ?_
    rw [emit_withPast]
    rfl
  | vstore a v =>
    rw [Instr.effect, memWrite_withPast]
    exact map_bind_withPast _ fun _ => rfl
  | vstorer a r =>
    refine bind_withPast (s.readOperand r) fun v => ?_
    rw [memWrite_withPast]
    exact map_bind_withPast _ fun _ => rfl
  | vload a =>
    refine bind_withPast (s.memRead a) fun v => ?_
    rw [push_withPast]
    exact map_bind_withPast _ fun _ => rfl
  | vloadr r a =>
    exact bind_withPast (raising (regIndex r)) fun _ => bind_withPast (s.memRead a) fun _ => rfl
  | vpush v =>
    rw [Instr.effect, push_withPast]
    exact map_bind_withPast _ fun _ => rfl
  | vpushr r =>
    refine bind_withPast (s.readOperand r) fun v => ?_
    rw [push_withPast]
    exact map_bind_withPast _ fun _ => rfl
  | vpop r =>
    exact bind_withPast (raising (regIndex r)) fun _ => bind_withPast s.top fun _ => rfl
  | call r =>
    refine bind_withPast (s.readOperand r) fun v => bind_withPast (raising _) fun d => ?_
    rw [push_withPast]
    exact map_bind_withPast _ fun _ => rfl
  | ret => exact bind_withPast s.top fun _ => bind_withPast (raising _) fun _ => rfl

theorem exec_withPast (i : Instr) (s : State) (past : List Value) :
    exec i (s.withPast past) = mapNext (State.withPast past) (exec i s) := by
  rw [exec_eq_finish, exec_eq_finish, effect_withPast, finish_withPast]

/-- A step does the same whatever was emitted before (R37). -/
theorem step_withPast (s : State) (past : List Value) :
    step (s.withPast past) = mapNext (State.withPast past) (step s) := by
  by_cases hrun : s.rs = .running
  · rw [step_of_running hrun, step_of_running (s := s.withPast past) hrun]
    by_cases hip : s.ip < s.params.codeLen
    · match hf : s.fetch with
      | .error _ =>
        rw [sequencerStep_of_fetch_error hip hf,
          sequencerStep_of_fetch_error (s := s.withPast past) hip hf]
        rfl
      | .ok (i, w) =>
        rw [sequencerStep_of_fetch_ok hip hf,
          sequencerStep_of_fetch_ok (s := s.withPast past) hip hf, exec_withPast]
    · rw [sequencerStep_of_atEnd (Nat.le_of_not_lt hip),
        sequencerStep_of_atEnd (s := s.withPast past) (Nat.le_of_not_lt hip)]
      rfl
  · rw [step_of_not_running hrun, step_of_not_running (s := s.withPast past) hrun]
    by_cases hidle : s.rs = .idle
    · rw [State.runRequest_idle s hidle, State.runRequest_idle (s.withPast past) hidle]
      rfl
    · rw [State.runRequest_other s hidle, State.runRequest_other (s.withPast past) hidle]
      rfl

/-- Settles O20: both states are the one with an empty history, given a past, and what the step from
that one emits is what is added. -/
theorem outputIsAppendedAndNeverRead : Obligations.OutputIsAppendedAndNeverRead := by
  refine ⟨fun s t h => ?_, fun i s t h => ?_⟩
  · have hpast (past : List Value) :
        step { s with out := past } =
          mapNext (State.withPast past) (step { s with out := [] }) := by
      rw [← step_withPast]
      simp [State.withPast]
    obtain ⟨u, hu, rfl⟩ := mapNext_eq_next ((hpast s.out).symm.trans h)
    refine ⟨u.out, rfl, fun before => ?_⟩
    rw [hpast, hu]
    rfl
  · exact frame_of_exec_eq_next (P := fun u => u.out = s.out ∨ ∃ v, u.out = s.out ++ [v] ∧
      ((∃ r, i = .printr r) ∨ ∃ a, i = .printv a)) h (.inl rfl) (fun _ hx => hx.out)
      fun _ _ _ hu => hu

end Sys2Proof
end

section
/-! PROOFS. Which errors are raised (60_exceptions.md R210, R211). -/

namespace Sys2Proof.Machine

variable {α β : Type} {s : State} {es : List ExecutionError}

/-- A part of an instruction raises no error but the listed ones (it may be stuck). -/
def RaisesOnly (es : List ExecutionError) (m : Except Stop α) : Prop :=
  ∀ e, m = .error (.raise e) → e ∈ es

theorem RaisesOnly.bind {m : Except Stop α} {k : α → Except Stop β} (hm : RaisesOnly es m)
    (hk : ∀ a, RaisesOnly es (k a)) : RaisesOnly es (m >>= k) := by
  intro e h
  obtain h | ⟨a, _, h⟩ := except_bind_eq_error.mp h
  · exact hm e h
  · exact hk a e h

theorem raisesOnly_ok (a : α) : RaisesOnly es (.ok a : Except Stop α) := fun _ h => by cases h

theorem raisesOnly_raising {m : Except ExecutionError α} (hm : ∀ e, m = .error e → e ∈ es) :
    RaisesOnly es (raising m) := by
  intro e h
  obtain ⟨e', he, hp⟩ := raising_eq_error.mp h
  cases hp
  exact hm _ he

/-! The checks, each with its one error, and the push, which has none (R27 to R30, R150). -/

theorem raisesOnly_regIndex {r : RegIndex}
    (he : .invalidRegister ∈ es := by simp [Instr.listedErrors]) :
    RaisesOnly es (raising (regIndex r)) :=
  raisesOnly_raising fun _ h => (regIndex_eq_error.mp h).2 ▸ he

theorem raisesOnly_readOperand {r : RegIndex}
    (he : .invalidRegister ∈ es := by simp [Instr.listedErrors]) :
    RaisesOnly es (s.readOperand r) := by
  intro e h
  cases (readOperand_eq_error.mp h).2
  exact he

theorem raisesOnly_memRead {a : HeapAddr} (he : .outOfBounds ∈ es := by simp [Instr.listedErrors]) :
    RaisesOnly es (s.memRead a) := by
  intro e h
  cases (memRead_eq_error.mp h).2
  exact he

theorem raisesOnly_memWrite {a : HeapAddr} {v : Value}
    (he : .outOfBounds ∈ es := by simp [Instr.listedErrors]) : RaisesOnly es (s.memWrite a v) := by
  intro e h
  cases (memWrite_eq_error.mp h).2
  exact he

theorem raisesOnly_top (he : .stackUnderflow ∈ es := by simp [Instr.listedErrors]) :
    RaisesOnly es s.top := by
  intro e h
  cases (top_eq_error.mp h).2
  exact he

theorem raisesOnly_jumpTarget {n : Nat} {v : Value}
    (he : .invalidJumpTarget ∈ es := by simp [Instr.listedErrors]) :
    RaisesOnly es (raising (jumpTarget n v)) :=
  raisesOnly_raising fun _ h => (jumpTarget_eq_error.mp h).2 ▸ he

theorem raisesOnly_push {v : Value} : RaisesOnly es (s.push v) := by
  intro e h
  cases (push_eq_error.mp h).2

theorem raisesOnly_pushResult {res : AluResult} : RaisesOnly es (s.pushResult res) :=
  raisesOnly_push.bind fun _ => raisesOnly_ok _

/-! The shared shapes (R152 to R156, R170, R178). -/

theorem raisesOnly_jumpIf {taken : Bool} {r : RegIndex}
    (hreg : .invalidRegister ∈ es := by simp [Instr.listedErrors])
    (htarget : .invalidJumpTarget ∈ es := by simp [Instr.listedErrors]) :
    RaisesOnly es (s.jumpIf taken r) := by
  refine (raisesOnly_readOperand hreg).bind fun v => ?_
  cases taken with
  | false => exact raisesOnly_ok _
  | true => exact (raisesOnly_jumpTarget htarget).bind fun _ => raisesOnly_ok _

variable {f : Value → Value → Except ExecutionError AluResult}

theorem raisesOnly_alu2 {r1 r2 : RegIndex} (hf : ∀ a b e, f a b = .error e → e ∈ es)
    (hreg : .invalidRegister ∈ es := by simp [Instr.listedErrors]) :
    RaisesOnly es (s.alu2 f r1 r2) :=
  (raisesOnly_readOperand hreg).bind fun a => (raisesOnly_readOperand hreg).bind fun b =>
    (raisesOnly_raising (hf a b)).bind fun _ => raisesOnly_pushResult

theorem raisesOnly_alu2_of_typeMismatch {r1 r2 : RegIndex}
    (hf : ∀ a b e, f a b = .error e → e = .typeMismatch)
    (hkind : .typeMismatch ∈ es := by simp [Instr.listedErrors])
    (hreg : .invalidRegister ∈ es := by simp [Instr.listedErrors]) :
    RaisesOnly es (s.alu2 f r1 r2) :=
  raisesOnly_alu2 (fun a b e h => hf a b e h ▸ hkind) hreg

theorem raisesOnly_aluImm {r : RegIndex} {imm : Value} (hf : ∀ a b e, f a b = .error e → e ∈ es)
    (hreg : .invalidRegister ∈ es := by simp [Instr.listedErrors]) :
    RaisesOnly es (s.aluImm f r imm) :=
  (raisesOnly_readOperand hreg).bind fun a =>
    (raisesOnly_raising (hf a imm)).bind fun _ => raisesOnly_pushResult

end Sys2Proof.Machine

namespace Sys2Proof

open Sys2Proof.Machine

/-- What an instruction raises is listed for it (R211). -/
theorem raisesOnly_listedErrors (i : Instr) (s : State) :
    RaisesOnly i.listedErrors (i.effect s) := by
  cases i with
  | nop | halt => exact raisesOnly_ok _
  | jmp | je | jne | jg | jl => exact raisesOnly_jumpIf
  | add => exact raisesOnly_alu2_of_typeMismatch fun _ _ _ h => (aluAdd_eq_error.mp h).2
  | sub => exact raisesOnly_alu2_of_typeMismatch fun _ _ _ h => (aluSub_eq_error.mp h).2
  | mul => exact raisesOnly_alu2_of_typeMismatch fun _ _ _ h => (aluMul_eq_error.mp h).2
  | and => exact raisesOnly_alu2_of_typeMismatch fun _ _ _ h => (aluAnd_eq_error.mp h).2
  | or => exact raisesOnly_alu2_of_typeMismatch fun _ _ _ h => (aluOr_eq_error.mp h).2
  | xor => exact raisesOnly_alu2_of_typeMismatch fun _ _ _ h => (aluXor_eq_error.mp h).2
  | div =>
    refine raisesOnly_alu2 fun _ _ _ h => ?_
    obtain ⟨_, rfl⟩ | ⟨_, _, _, rfl⟩ := aluDiv_eq_error.mp h <;> simp [Instr.listedErrors]
  | shr =>
    refine raisesOnly_aluImm fun _ _ _ h => ?_
    obtain ⟨_, rfl⟩ | ⟨_, _, rfl⟩ := aluShr_eq_error.mp h <;> simp [Instr.listedErrors]
  | shl =>
    refine raisesOnly_aluImm fun _ _ _ h => ?_
    obtain ⟨_, rfl⟩ | ⟨_, _, rfl⟩ := aluShl_eq_error.mp h <;> simp [Instr.listedErrors]
  | mov => exact .bind raisesOnly_regIndex fun _ => raisesOnly_ok _
  | movr =>
    exact .bind raisesOnly_regIndex fun _ => .bind raisesOnly_readOperand fun _ => raisesOnly_ok _
  | cmp =>
    refine .bind raisesOnly_readOperand fun a => .bind raisesOnly_readOperand fun b =>
      RaisesOnly.bind (raisesOnly_raising fun e h => ?_) fun _ => raisesOnly_ok _
    simp [Instr.listedErrors, (cmpFlags_eq_error.mp h).2]
  | printr => exact .bind raisesOnly_readOperand fun _ => raisesOnly_ok _
  | printv => exact .bind raisesOnly_memRead fun _ => raisesOnly_ok _
  | vstore => exact .bind raisesOnly_memWrite fun _ => raisesOnly_ok _
  | vstorer =>
    exact .bind raisesOnly_readOperand fun _ => .bind raisesOnly_memWrite fun _ => raisesOnly_ok _
  | vload => exact .bind raisesOnly_memRead fun _ => .bind raisesOnly_push fun _ => raisesOnly_ok _
  | vloadr =>
    exact .bind raisesOnly_regIndex fun _ => .bind raisesOnly_memRead fun _ => raisesOnly_ok _
  | vpush => exact .bind raisesOnly_push fun _ => raisesOnly_ok _
  | vpushr =>
    exact .bind raisesOnly_readOperand fun _ => .bind raisesOnly_push fun _ => raisesOnly_ok _
  | vpop => exact .bind raisesOnly_regIndex fun _ => .bind raisesOnly_top fun _ => raisesOnly_ok _
  | call =>
    exact .bind raisesOnly_readOperand fun _ => .bind raisesOnly_jumpTarget fun _ =>
      .bind raisesOnly_push fun _ => raisesOnly_ok _
  | ret => exact .bind raisesOnly_top fun _ => .bind raisesOnly_jumpTarget fun _ => raisesOnly_ok _

/-- Settles O14: an instruction executed while Running is Faulted only by raising. -/
theorem onlyListedErrorsAreRaised : Obligations.OnlyListedErrorsAreRaised := by
  refine ⟨rfl, fun i s t e hrun h ht => ?_⟩
  rw [exec_eq_finish, finish_eq_next] at h
  obtain ⟨x, hx, rfl⟩ | ⟨u, hu, rfl⟩ | ⟨u, _, hu, rfl⟩ | ⟨u, _, rfl⟩ := h
  · cases ht
    exact ⟨x, rfl, raisesOnly_listedErrors i s x hx⟩
  · have hkeep : u.rs = .running := (rs_of_effect_eq_ok hu).trans hrun
    simp [hkeep] at ht
  · have hkeep : u.rs = .running := (rs_of_effect_eq_ok hu).trans hrun
    simp [hkeep] at ht
  · cases ht

end Sys2Proof
end

section
/-! PROOFS. Every step answers (60_exceptions.md R218; 70_reset_and_hazards.md R247). -/

namespace Sys2Proof

open Sys2Proof.Machine Sys2Proof.Claims

variable {i : Instr} {s : State} {f : Fault}

/-- An instruction is stuck only at a push on a stack at its capacity (R29). -/
theorem exec_fault (h : exec i s = .fault f) : i.pushes = true ∧ f = .stackFull ∧ AtCapacity s :=
  stackGrowsAndShrinksAsListed.2.2 i s f h

/-- What a step can answer: a next state, or the answer of the instruction at `ip` (R82). -/
theorem step_answer (s : State) : (∃ t, step s = .next t) ∨
    s.rs = .running ∧ ∃ i w, s.fetch = .ok (i, w) ∧ step s = exec i s := by
  by_cases hrun : s.rs = .running
  · rw [step_of_running hrun]
    by_cases hip : s.ip < s.params.codeLen
    · match hf : s.fetch with
      | .error _ => exact .inl ⟨_, sequencerStep_of_fetch_error hip hf⟩
      | .ok (i, w) => exact .inr ⟨hrun, i, w, rfl, sequencerStep_of_fetch_ok hip hf⟩
    · exact .inl ⟨_, sequencerStep_of_atEnd (Nat.le_of_not_lt hip)⟩
  · exact .inl ⟨_, step_of_not_running hrun⟩

/-- No step is refused. -/
theorem step_ne_refused (s : State) (x : Refusal) : step s ≠ .refused x := by
  obtain ⟨t, ht⟩ | ⟨_, i, _, _, hexec⟩ := step_answer s
  · simp [ht]
  · rw [hexec, exec_eq_finish]
    exact finish_ne_refused _ _ _

/-- A step without a next state is a push at capacity. -/
theorem step_fault (h : step s = .fault f) : s.rs = .running ∧ AtCapacity s ∧ f = .stackFull ∧
    ∃ i w, decode s.params.code s.ip = .ok (i, w) ∧ i.pushes = true := by
  obtain ⟨t, ht⟩ | ⟨hrun, i, w, hf, hexec⟩ := step_answer s
  · simp [ht] at h
  · obtain ⟨hpush, hfull, hcap⟩ := exec_fault (hexec.symm.trans h)
    exact ⟨hrun, hcap, hfull, i, w, hf, hpush⟩

/-- Settles O23: an unbounded stack is never at a capacity. -/
theorem everyStepAnswers : Obligations.EveryStepAnswers := by
  refine fun s => ⟨step_ne_refused s, fun f => step_fault, fun hunbounded => ?_⟩
  match h : step s with
  | .next t => exact ⟨t, rfl⟩
  | .refused x => exact absurd h (step_ne_refused s x)
  | .fault f =>
    obtain ⟨_, ⟨c, hc, _⟩, _⟩ := step_fault h
    simp [hunbounded] at hc

end Sys2Proof
end

section
/-! PROOFS. The frame of the ALU instructions, and the ALU at capacity (44_alu_ops.md R170;
10_state.md R29). -/

namespace Sys2Proof

open Sys2Proof.Machine Sys2Proof.Claims

variable {i : Instr} {s t : State} {x : State × Flow}

/-- An ALU instruction that raises nothing has pushed one value, and counted a draw if it was a
drawn NaN (R121, R170). -/
theorem pushed_of_effect_of_isAlu (hi : i.isAlu = true) (h : i.effect s = .ok x) :
    ∃ v n, (n = s.nanDraws ∨ n = s.nanDraws + 1) ∧
      x = ({ s with stack := v :: s.stack, nanDraws := n }, .fallThrough) := by
  have hdraws (res : AluResult) :
      s.nanDraws + res.draws = s.nanDraws ∨ s.nanDraws + res.draws = s.nanDraws + 1 := by
    cases res with
    | value => exact .inl rfl
    | nan => exact .inr rfl
  cases i with
  | add | sub | mul | div | and | or | xor =>
    obtain ⟨_, _, res, _, _, rfl⟩ := alu2_eq_ok.mp h
    exact ⟨_, _, hdraws res, rfl⟩
  | shr | shl =>
    obtain ⟨_, res, _, _, rfl⟩ := aluImm_eq_ok.mp h
    exact ⟨_, _, hdraws res, rfl⟩
  | _ => cases hi

/-- Settles O40: register indices are checked first, and what is left is one push. -/
theorem aluOnlyPushes : Obligations.AluOnlyPushes := by
  refine fun i s hi => ⟨fun ⟨r, hr, hbad⟩ => raises_of_effect (effect_of_bad_regOperand hr hbad),
    fun t h => ?_⟩
  rw [exec_eq_finish] at h
  match he : i.effect s with
  | .error (.raise e) =>
    rw [he, finish_raise] at h
    cases h
    exact .inl ⟨e, rfl⟩
  | .error (.stuck f) =>
    rw [he, finish_stuck] at h
    cases h
  | .ok x =>
    obtain ⟨v, n, hn, rfl⟩ := pushed_of_effect_of_isAlu hi he
    rw [he, finish_fallThrough] at h
    cases h
    exact .inr ⟨v, n, hn, rfl⟩

variable {f : Value → Value → Except ExecutionError AluResult} {good : Value → Value → Prop}

/-- An instruction of the two-register shape is stuck at capacity on operands its function raises
nothing on. -/
theorem stuckAtCapacity_of_alu2 {mk : RegIndex → RegIndex → Instr}
    (hpush : ∀ r1 r2, (mk r1 r2).pushes = true)
    (heff : ∀ r1 r2 s, (mk r1 r2).effect s = s.alu2 f r1 r2)
    (hf : ∀ a b e, good a b → f a b ≠ .error e) : StuckAtCapacity mk good := by
  intro r1 r2 s h1 h2 hgood hcap
  refine exec_of_pushes_of_full (hpush r1 r2) (stackIsFull_iff.mpr hcap) fun e he => ?_
  rw [heff, alu2_eq_raise h1 h2] at he
  exact hf _ _ e hgood he

/-- As `stuckAtCapacity_of_alu2`, for the shifts' shape. -/
theorem stuckAtCapacityImm_of_aluImm {mk : RegIndex → Value → Instr}
    (hpush : ∀ r imm, (mk r imm).pushes = true)
    (heff : ∀ r imm s, (mk r imm).effect s = s.aluImm f r imm)
    (hf : ∀ a b e, good a b → f a b ≠ .error e) : StuckAtCapacityImm mk good := by
  intro r imm s h hgood hcap
  refine exec_of_pushes_of_full (hpush r imm) (stackIsFull_iff.mpr hcap) fun e he => ?_
  rw [heff, aluImm_eq_raise h] at he
  exact hf _ _ e hgood he

/-- A kind that is neither a float kind nor the empty one is an integer kind (R111). -/
theorem isInteger_of_not_isFloat {k : Kind} (hk : k ≠ .none) (h : k.isFloat = false) :
    k.isInteger = true := by
  cases k <;> simp_all [Kind.isFloat, Kind.isInteger, Kind.isUnsigned, Kind.isSigned]

/-- Settles O53: on good operands no function raises an error, so the push is reached. -/
theorem aluIsStuckAtCapacity : Obligations.AluIsStuckAtCapacity := by
  simp only [Obligations.AluIsStuckAtCapacity, List.forall_mem_cons]
  refine ⟨⟨?_, ?_, ?_, List.forall_mem_nil _⟩, ?_, ⟨?_, ?_, ?_, List.forall_mem_nil _⟩, ?_, ?_,
    List.forall_mem_nil _⟩
  · refine stuckAtCapacity_of_alu2 (fun _ _ => rfl) (fun _ _ _ => rfl) fun a b e hgood he => ?_
    exact (aluAdd_eq_error.mp he).1 ⟨hgood.1, numericKind_iff.mpr hgood.2⟩
  · refine stuckAtCapacity_of_alu2 (fun _ _ => rfl) (fun _ _ _ => rfl) fun a b e hgood he => ?_
    exact (aluSub_eq_error.mp he).1 ⟨hgood.1, numericKind_iff.mpr hgood.2⟩
  · refine stuckAtCapacity_of_alu2 (fun _ _ => rfl) (fun _ _ _ => rfl) fun a b e hgood he => ?_
    exact (aluMul_eq_error.mp he).1 ⟨hgood.1, numericKind_iff.mpr hgood.2⟩
  · refine stuckAtCapacity_of_alu2 (fun _ _ => rfl) (fun _ _ _ => rfl) fun a b e hgood he => ?_
    obtain ⟨hsame, hnone, hdivisor⟩ := hgood
    obtain ⟨hbad, _⟩ | ⟨_, hfloat, hzero, _⟩ := aluDiv_eq_error.mp he
    · exact hbad ⟨hsame, numericKind_iff.mpr hnone⟩
    · exact hdivisor (isInteger_of_not_isFloat hnone hfloat) hzero
  · exact stuckAtCapacity_of_alu2 (fun _ _ => rfl) (fun _ _ _ => rfl) fun a b e hgood he =>
      (aluAnd_eq_error.mp he).1 hgood
  · exact stuckAtCapacity_of_alu2 (fun _ _ => rfl) (fun _ _ _ => rfl) fun a b e hgood he =>
      (aluOr_eq_error.mp he).1 hgood
  · exact stuckAtCapacity_of_alu2 (fun _ _ => rfl) (fun _ _ _ => rfl) fun a b e hgood he =>
      (aluXor_eq_error.mp he).1 hgood
  · refine stuckAtCapacityImm_of_aluImm (fun _ _ => rfl) (fun _ _ _ => rfl) fun a b e hgood he => ?_
    obtain ⟨hsame, hint, hamount⟩ := hgood
    obtain ⟨hbad, _⟩ | ⟨_, hzero, _⟩ := aluShr_eq_error.mp he
    · exact hbad ⟨hsame, hint⟩
    · exact hamount hzero
  · refine stuckAtCapacityImm_of_aluImm (fun _ _ => rfl) (fun _ _ _ => rfl) fun a b e hgood he => ?_
    obtain ⟨hsame, hint, hamount⟩ := hgood
    obtain ⟨hbad, _⟩ | ⟨_, hzero, _⟩ := aluShl_eq_error.mp he
    · exact hbad ⟨hsame, hint⟩
    · exact hamount hzero

end Sys2Proof
end

section
/-! PROOFS. The decoder on an encoding, whole or cut short (30_encoding.md section 4). -/

namespace Sys2Proof.Laws

variable {bs : List Byte}

/-! An illegal opcode or kind tag is found wherever the bytes end: more bytes do not make it legal
(R77). -/

theorem decodeImm_invalidOpcode_append (h : decodeImm bs = .error .invalidOpcode)
    (rest : List Byte) : decodeImm (bs ++ rest) = .error .invalidOpcode := by
  match bs with
  | [] => cases h
  | t :: tail =>
    rw [decodeImm] at h
    split at h
    · next hk => simp [decodeImm, hk]
    · split at h <;> cases h

theorem decodeImm_eq_error_of_map {α : Type} {f : Value × Nat → α} {e : DecodeError}
    (h : (decodeImm bs).map f = .error e) : decodeImm bs = .error e := by
  match hd : decodeImm bs with
  | .error _ => simpa [hd, Except.map] using h
  | .ok _ => simp [hd, Except.map] at h

theorem decodeFields_invalidOpcode_append {l : Layout}
    (h : decodeFields l bs = .error .invalidOpcode) (rest : List Byte) :
    decodeFields l (bs ++ rest) = .error .invalidOpcode := by
  unfold decodeFields at h
  split at h
  case h_4 mk r tail =>
    exact decodeFields_ri_of_error
      (decodeImm_invalidOpcode_append (decodeImm_eq_error_of_map h) rest) mk r
  case h_6 mk b0 b1 b2 b3 tail =>
    exact decodeFields_ai_of_error
      (decodeImm_invalidOpcode_append (decodeImm_eq_error_of_map h) rest) mk b0 b1 b2 b3
  case h_9 mk =>
    exact decodeFields_i_of_error
      (decodeImm_invalidOpcode_append (decodeImm_eq_error_of_map h) rest) mk
  all_goals cases h

theorem decodeBytes_invalidOpcode_append (h : decodeBytes bs = .error .invalidOpcode)
    (rest : List Byte) : decodeBytes (bs ++ rest) = .error .invalidOpcode := by
  match bs with
  | [] => cases h
  | op :: tail =>
    rw [decodeBytes] at h
    split at h
    · next hop => simp [decodeBytes, hop]
    · next l hop => simp [decodeBytes, hop, decodeFields_invalidOpcode_append h rest]

end Sys2Proof.Laws

namespace Sys2Proof

open Sys2Proof.Laws

/-- Settles O2: what the decoder accepts begins with the encoding of what it answers. -/
theorem decodedBytesAreTheEncoding : Obligations.DecodedBytesAreTheEncoding := by
  intro bs i w h
  obtain ⟨j, tail, hj, rfl, hx⟩ := decodeBytes_eq_ok.mp h
  cases hx
  have hlen : (encode i).length = i.width := encode_length i
  exact ⟨hj, rfl, by simp [hlen], List.take_left' hlen⟩

/-- Settles O3: cut bytes that decoded would begin with an encoding of their own, and cut bytes
found illegal would be illegal uncut. -/
theorem cutEncodingIsTruncated : Obligations.CutEncodingIsTruncated := by
  intro i n hi hn
  have hwhole : decodeBytes ((encode i).take n ++ (encode i).drop n) = .ok (i, i.width) := by
    simpa using decodeBytes_encode hi []
  match h : decodeBytes ((encode i).take n) with
  | .error .truncatedInstruction => rfl
  | .error .invalidOpcode =>
    rw [decodeBytes_invalidOpcode_append h] at hwhole
    cases hwhole
  | .ok x =>
    obtain ⟨j, tail, hj, htake, rfl⟩ := decodeBytes_eq_ok.mp h
    rw [htake, List.append_assoc, decodeBytes_encode hj] at hwhole
    obtain ⟨rfl, _⟩ := Prod.mk.inj (Except.ok.inj hwhole)
    have hlen := congrArg List.length htake
    rw [List.length_take_of_le hn.le, List.length_append] at hlen
    omega

/-- Settles O5: each word is run through the decoder. -/
theorem sampleWordsDecode : Obligations.SampleWordsDecode :=
  ⟨rfl, rfl, rfl, rfl, rfl, rfl, rfl, rfl, rfl⟩

end Sys2Proof
end

section
/-! PROOFS. Integer readings, CMP on integers and the jumps after it (10_state.md section 2;
42_compare_branch.md sections 2 and 3). -/

namespace Sys2Proof

open Sys2Proof.Machine

variable {s : State} {r1 r2 : RegIndex}

/-- No kind is both unsigned and signed (R22). -/
theorem isSigned_eq_false_of_isUnsigned {k : Kind} (h : k.isUnsigned = true) :
    k.isSigned = false := by
  cases k <;> first | rfl | cases h

/-- Settles O24: a signed reading is the two's complement of the pattern, whose sign is its last
bit. -/
theorem integerReadings : Obligations.IntegerReadings := by
  refine fun v => ⟨fun h => ?_, fun h => ?_⟩
  · simp [val, uval, isSigned_eq_false_of_isUnsigned h]
  · rw [val, if_pos h, BitVec.toInt_eq_msb_cond, BitVec.msb_eq_getLsbD_last, uval]
    split <;> simp

/-- CMP on operands of one numeric kind writes the two comparisons and moves on by its width (R114,
R151). -/
theorem exec_cmp_of_sameNumeric (h1 : r1.toNat < 8) (h2 : r2.toNat < 8)
    (h : SameNumeric (s.reg ⟨r1.toNat, h1⟩) (s.reg ⟨r2.toNat, h2⟩)) :
    exec (.cmp r1 r2) s = .next
      { s with
        flagEq := cmpEq (s.reg ⟨r1.toNat, h1⟩) (s.reg ⟨r2.toNat, h2⟩)
        flagGt := cmpGt (s.reg ⟨r1.toNat, h1⟩) (s.reg ⟨r2.toNat, h2⟩)
        ip := s.ip + 3 } := by
  have heff : (Instr.cmp r1 r2).effect s = .ok (s.setFlags
      (cmpEq (s.reg ⟨r1.toNat, h1⟩) (s.reg ⟨r2.toNat, h2⟩))
      (cmpGt (s.reg ⟨r1.toNat, h1⟩) (s.reg ⟨r2.toNat, h2⟩)), .fallThrough) := by
    simp [Instr.effect, readOperand_of_lt h1, readOperand_of_lt h2, cmpFlags_eq_ok.mpr ⟨h, rfl⟩]
  rw [exec_eq_finish, heff, finish_fallThrough]
  rfl

/-- Settles O28: on integers the comparisons are those of the values. -/
theorem cmpComparesIntegers : Obligations.CmpComparesIntegers := by
  intro r1 r2 s h1 h2 hkind hint
  rw [exec_cmp_of_sameNumeric h1 h2 ⟨hkind, numericKind_of_isInteger hint⟩]
  simp [cmpEq, cmpGt, not_isFloat_of_isInteger hint]

/-- A jump of the law of R150 through a valid target goes there exactly where its condition
holds. -/
theorem exec_of_jumpLaw {mk : RegIndex → Instr} {opcode : Byte} {taken : State → Bool}
    (hlaw : Claims.JumpLaw mk opcode taken) {r : RegIndex} (h : r.toNat < 8) {n : Nat}
    (hint : (s.reg ⟨r.toNat, h⟩).kind.isInteger = true) (hval : val (s.reg ⟨r.toNat, h⟩) = n)
    (hle : n ≤ s.params.codeLen) {P : Prop} [Decidable P] (hP : taken s = true ↔ P) :
    exec (mk r) s = .next { s with ip := if P then n else s.ip + 2 } := by
  obtain ⟨_, _, hjump⟩ := hlaw r s
  obtain ⟨huntaken, htaken, _⟩ := hjump h
  by_cases hp : P
  · rw [htaken (hP.mpr hp) n hint hval hle, if_pos hp]
  · rw [huntaken (Bool.eq_false_iff.mpr fun ht => hp (hP.mp ht)), if_neg hp]

/-- Settles O31: CMP leaves the comparisons of the values in the flags, which are the jumps'
conditions. -/
theorem jumpsAfterCmp : Obligations.JumpsAfterCmp := by
  intro r1 r2 r s h1 h2 h n hkind hint htarget hval hle
  obtain ⟨_, hje, hjne, hjg, hjl⟩ := jumpsFollowTheirConditions
  obtain ⟨t, hcmp, hreg, hparams, heq, hgt⟩ : ∃ t, exec (.cmp r1 r2) s = .next t ∧
      t.reg ⟨r.toNat, h⟩ = s.reg ⟨r.toNat, h⟩ ∧ t.params = s.params ∧
      t.flagEq = decide (val (s.reg ⟨r1.toNat, h1⟩) = val (s.reg ⟨r2.toNat, h2⟩)) ∧
      t.flagGt = decide (val (s.reg ⟨r1.toNat, h1⟩) > val (s.reg ⟨r2.toNat, h2⟩)) :=
    ⟨_, cmpComparesIntegers r1 r2 s h1 h2 hkind hint, rfl, rfl, rfl, rfl⟩
  rw [← hreg] at htarget hval
  rw [← hparams] at hle
  refine ⟨t, hcmp, exec_of_jumpLaw hje h htarget hval hle ?_,
    exec_of_jumpLaw hjne h htarget hval hle ?_, exec_of_jumpLaw hjg h htarget hval hle ?_,
    exec_of_jumpLaw hjl h htarget hval hle ?_⟩
  · simp [heq]
  · simp [heq]
  · simp [hgt]
  · simp only [heq, hgt, Bool.and_eq_true, Bool.not_eq_true', decide_eq_false_iff_not]
    omega

end Sys2Proof
end

section
/-! PROOFS. The laws of two instructions run one after the other: E3, E4, E6 (95_test_vectors.md
section 1). -/

namespace Sys2Proof

open Sys2Proof.Machine

/-- Settles O34: the store leaves the value in the cell, and the load pushes the cell. -/
theorem loadAfterStorePushesTheValue : Obligations.LoadAfterStorePushesTheValue := by
  intro a v s t u hw ha hstore hparams hheap hroom
  have hparams' : t.params = s.params := params_of_exec_eq_next hstore
  obtain ⟨t', hstore', hcell, _⟩ := exec_of_effect_vstore (i := .vstore a v) rfl ha hw
  obtain rfl : t' = t := Host.Outcome.next.inj (hstore'.symm.trans hstore)
  have hread : u.cell a.toNat = v := by
    rw [← hcell, State.cell, State.cell, hparams, hheap]
  have hau : a.toNat < u.params.heapSize := by rwa [hparams, hparams']
  rw [exec_of_effect_vpush_of_room (effect_vload_of_lt hau) hroom, hread]
  rfl

/-- Settles O47: the push leaves the value on top of the stack, and the pop takes the top. -/
theorem popAfterPushRestoresTheStack : Obligations.PopAfterPushRestoresTheStack := by
  intro v r s t u h hroom hpush hstack
  rw [exec_of_effect_vpush_of_room rfl hroom] at hpush
  cases hpush
  obtain ⟨_, _, hpop⟩ := popTakesTheTop r u
  obtain ⟨w, hw, hreg, _, hall⟩ := (hpop h).2 v s.stack hstack
  have hrest := congrArg State.stack hall
  exact ⟨w, hw, hreg, hrest⟩

/-- A CALL that leaves the machine Running has pushed its return address (R190). -/
theorem stack_of_exec_call {r : RegIndex} {s t : State}
    (h : exec (.call r) s = .next t) (ht : t.rs = .running) :
    t.params = s.params ∧ t.stack = Value.ofNat .u64 (s.ip + 2) :: s.stack := by
  refine ⟨params_of_exec_eq_next h, ?_⟩
  obtain ⟨e, _, rfl⟩ | ⟨u, flow, ip, rs, hu, rfl⟩ := effect_of_exec_eq_next h
  · cases ht
  · obtain ⟨_, _, hu⟩ := except_bind_eq_ok.mp hu
    obtain ⟨_, _, hu⟩ := except_bind_eq_ok.mp hu
    obtain ⟨_, hx⟩ := push_bind_eq_ok.mp hu
    cases hx
    rfl

/-- Settles O50: the return address CALL pushed is a u64 that names the offset after it. -/
theorem returnResumesAfterTheCall : Obligations.ReturnResumesAfterTheCall := by
  intro r s t u _ hip hcode h ht hstack hparams
  obtain ⟨hparams', hpushed⟩ := stack_of_exec_call h ht
  obtain ⟨_, hret⟩ := (retPopsAValidTarget.2 u).2 _ s.stack (hstack.trans hpushed)
  have hval : val (Value.ofNat .u64 (s.ip + 2)) = (s.ip + 2 : Nat) :=
    congrArg Int.ofNat (uval_ofNat_u64_of_lt (hip.trans_lt hcode))
  exact hret (s.ip + 2) rfl hval (by rwa [hparams, hparams'])

end Sys2Proof
end

section
/-! PROOFS. Float patterns: their fields as one magnitude and one sign, and what each class reads as
(10_state.md R23; 40_tagged_value_alu.md R114, R121; log 14). -/

namespace Sys2Proof.Machine.FloatFormat

variable {f : FloatFormat} {p m n e : Nat} {neg : Bool}

/-! ### The fields of a pattern, in terms of its magnitude `p % f.signBit` -/

theorem signBit_eq (f : FloatFormat) : f.signBit = 2 ^ f.fracBits * 2 ^ f.expBits :=
  Nat.pow_add 2 f.fracBits f.expBits

theorem signBit_pos (f : FloatFormat) : 0 < f.signBit := Nat.two_pow_pos _

theorem infMag_lt_signBit (f : FloatFormat) : f.infMag < f.signBit := by
  rw [signBit_eq, infMag, Nat.mul_comm]
  exact Nat.mul_lt_mul_of_pos_left (Nat.sub_one_lt (Nat.two_pow_pos _).ne') (Nat.two_pow_pos _)

theorem expField_eq (f : FloatFormat) (p : Nat) :
    f.expField p = p % f.signBit / 2 ^ f.fracBits := by
  rw [expField, signBit_eq, Nat.mod_mul_right_div_self]

theorem fracField_eq (f : FloatFormat) (p : Nat) :
    f.fracField p = p % f.signBit % 2 ^ f.fracBits := by
  rw [fracField, signBit_eq, Nat.mod_mul_right_mod]

/-- The two fields make up the magnitude. -/
theorem expField_mul_add_fracField (f : FloatFormat) (p : Nat) :
    f.expField p * 2 ^ f.fracBits + f.fracField p = p % f.signBit := by
  rw [expField_eq, fracField_eq, Nat.div_add_mod']

theorem expField_lt (f : FloatFormat) (p : Nat) : f.expField p < 2 ^ f.expBits :=
  Nat.mod_lt _ (Nat.two_pow_pos _)

theorem fracField_lt (f : FloatFormat) (p : Nat) : f.fracField p < 2 ^ f.fracBits :=
  Nat.mod_lt _ (Nat.two_pow_pos _)

/-! The classes of patterns are ranges of the magnitude, on both sides of that of the infinities. -/

theorem finite_iff : f.Finite p ↔ p % f.signBit < f.infMag := by
  have hlt := f.expField_lt p
  have hfield : f.expField p < 2 ^ f.expBits - 1 ↔ p % f.signBit < f.infMag := by
    rw [expField_eq, infMag, Nat.div_lt_iff_lt_mul (Nat.two_pow_pos _)]
  rw [Finite, ← hfield]
  omega

theorem infinite_iff : f.Infinite p ↔ p % f.signBit = f.infMag := by
  rw [Infinite, ← expField_mul_add_fracField, infMag]
  constructor
  · rintro ⟨hexp, hfrac⟩
    rw [hexp, hfrac, Nat.add_zero]
  · intro h
    have hexp := congrArg (· / 2 ^ f.fracBits) h
    have hfrac := congrArg (· % 2 ^ f.fracBits) h
    simp only [Nat.mul_add_mod', Nat.mul_mod_left, Nat.mod_eq_of_lt (f.fracField_lt p)] at hfrac
    simp only [hfrac, Nat.add_zero, Nat.mul_div_cancel _ (Nat.two_pow_pos f.fracBits)] at hexp
    exact ⟨hexp, hfrac⟩

theorem notANumber_iff : f.NotANumber p ↔ f.infMag < p % f.signBit := by
  have hsplit : f.NotANumber p ↔ ¬f.Finite p ∧ ¬f.Infinite p := by
    unfold NotANumber Finite Infinite
    tauto
  rw [hsplit, finite_iff, infinite_iff]
  omega

theorem zero_iff : f.Zero p ↔ p % f.signBit = 0 := by
  rw [Zero, ← expField_mul_add_fracField]
  simp

theorem isNaN_iff : f.isNaN p = true ↔ f.NotANumber p := by
  rw [isNaN, decide_eq_true_iff, notANumber_iff]

theorem Zero.finite (hf : 0 < f.infMag) (h : f.Zero p) : f.Finite p := by
  rw [finite_iff, zero_iff.mp h]
  exact hf

/-- The sign bit of a pattern that has no higher bits. -/
theorem signOf_eq (hp : p < 2 * f.signBit) : f.signOf p = decide (f.signBit ≤ p) := by
  have hlt : p / f.signBit < 2 := Nat.div_lt_of_lt_mul (Nat.mul_comm _ _ ▸ hp)
  have hle : 1 ≤ p / f.signBit ↔ f.signBit ≤ p := Nat.one_le_div_iff f.signBit_pos
  change decide (p / f.signBit % 2 = 1) = _
  rw [Nat.mod_eq_of_lt hlt, decide_eq_decide, ← hle]
  exact ⟨fun h => h.ge, fun h => Nat.le_antisymm (Nat.le_of_lt_succ hlt) h⟩

/-! A sign and a magnitude packed read back. -/

theorem pack_lt (hm : m < f.signBit) : f.pack neg m < 2 * f.signBit := by
  unfold pack
  split <;> omega

theorem pack_mod (hm : m < f.signBit) : f.pack neg m % f.signBit = m := by
  cases neg with
  | false => exact Nat.mod_eq_of_lt hm
  | true => exact (Nat.add_mod_left _ _).trans (Nat.mod_eq_of_lt hm)

theorem signOf_pack (hm : m < f.signBit) : f.signOf (f.pack neg m) = neg := by
  rw [signOf_eq (pack_lt hm)]
  cases neg with
  | false => exact decide_eq_false (Nat.not_le.mpr hm)
  | true => exact decide_eq_true (Nat.le_add_right _ _)

theorem pack_signOf_mod (hp : p < 2 * f.signBit) : f.pack (f.signOf p) (p % f.signBit) = p := by
  rw [signOf_eq hp, pack]
  by_cases hle : f.signBit ≤ p
  · rw [if_pos (decide_eq_true hle), Nat.mod_eq_sub_mod hle, Nat.mod_eq_of_lt (by omega)]
    omega
  · rw [if_neg (by simpa using hle), Nat.mod_eq_of_lt (Nat.lt_of_not_le hle)]

/-! What a pattern of each class reads as (R23). -/

theorem unpack_of_finite (hp : p < 2 * f.signBit) (h : f.Finite p) :
    f.unpack p = .fin (f.signOf p) (f.units (p % f.signBit)) := by
  rw [finite_iff] at h
  simp [unpack, signOf_eq hp, h.ne, Nat.not_lt.mpr h.le]

theorem unpack_of_infinite (hp : p < 2 * f.signBit) (h : f.Infinite p) :
    f.unpack p = .inf (f.signOf p) := by
  rw [infinite_iff] at h
  simp [unpack, signOf_eq hp, h]

theorem unpack_of_notANumber (h : f.NotANumber p) : f.unpack p = .nan := by
  rw [notANumber_iff] at h
  simp [unpack, h]

/-! ### Units: the magnitude as a whole number of least subnormals -/

/-- A significand `n` at scale `e`, subnormal only at the least scale, is where the scale's number
and the significand add up to in a magnitude, a carry out of the significand included. -/
theorem units_scaled (hn : n ≤ 2 * 2 ^ f.fracBits) (h : e = 0 ∨ 2 ^ f.fracBits ≤ n) :
    f.units (e * 2 ^ f.fracBits + n) = n * 2 ^ e := by
  have hpos : 0 < 2 ^ f.fracBits := Nat.two_pow_pos _
  by_cases hsub : n < 2 ^ f.fracBits
  · obtain rfl : e = 0 := h.resolve_right (Nat.not_le.mpr hsub)
    simp [units, Nat.div_eq_of_lt hsub, Nat.mod_eq_of_lt hsub]
  · obtain ⟨r, rfl⟩ := Nat.exists_eq_add_of_le (Nat.le_of_not_lt hsub)
    obtain hr | rfl : r < 2 ^ f.fracBits ∨ r = 2 ^ f.fracBits := by omega
    · have hsplit : e * 2 ^ f.fracBits + (2 ^ f.fracBits + r) = (e + 1) * 2 ^ f.fracBits + r := by
        ring
      simp [units, hsplit, Nat.add_div_of_dvd_right, Nat.div_eq_of_lt hr,
        Nat.mod_eq_of_lt hr, Nat.mul_div_cancel _ hpos]
    · have hsplit : e * 2 ^ f.fracBits + (2 ^ f.fracBits + 2 ^ f.fracBits) =
          (e + 2) * 2 ^ f.fracBits := by ring
      simp only [units, hsplit, Nat.mul_div_cancel _ hpos, Nat.mul_mod_left]
      rw [if_neg (by omega), Nat.add_zero, show e + 2 - 1 = e + 1 from rfl, pow_succ]
      ring

/-- Every magnitude is a significand at a scale. -/
theorem exists_scaled (f : FloatFormat) (m : Nat) : ∃ e n, m = e * 2 ^ f.fracBits + n ∧
    n < 2 * 2 ^ f.fracBits ∧ (e = 0 ∨ 2 ^ f.fracBits ≤ n) := by
  have hmod : m % 2 ^ f.fracBits < 2 ^ f.fracBits := Nat.mod_lt _ (Nat.two_pow_pos _)
  have hdiv : m / 2 ^ f.fracBits * 2 ^ f.fracBits + m % 2 ^ f.fracBits = m := Nat.div_add_mod' _ _
  match hm : m / 2 ^ f.fracBits with
  | 0 =>
    rw [hm, Nat.zero_mul, Nat.zero_add] at hdiv
    exact ⟨0, m, by omega, by omega, .inl rfl⟩
  | e + 1 =>
    rw [hm, Nat.succ_mul] at hdiv
    exact ⟨e, 2 ^ f.fracBits + m % 2 ^ f.fracBits, by omega, by omega, .inr (by omega)⟩

theorem units_strictMono (f : FloatFormat) : StrictMono f.units := by
  refine strictMono_nat_of_lt_succ fun m => ?_
  obtain ⟨e, n, rfl, hn, h⟩ := f.exists_scaled m
  rw [Nat.add_assoc, units_scaled hn.le h, units_scaled hn (h.imp_right Nat.le_succ_of_le)]
  exact Nat.mul_lt_mul_of_pos_right n.lt_succ_self (Nat.two_pow_pos e)

theorem units_zero (f : FloatFormat) : f.units 0 = 0 := by
  simpa using units_scaled (f := f) (n := 0) (e := 0) (Nat.zero_le _) (.inl rfl)

theorem units_eq_zero_iff : f.units m = 0 ↔ m = 0 :=
  ⟨fun h => f.units_strictMono.injective (h.trans f.units_zero.symm), fun h => h ▸ f.units_zero⟩

end Sys2Proof.Machine.FloatFormat
end

section
/-! PROOFS. The rational a pattern stands for, as a whole number of the least subnormal (10_state.md
R23; log 14). -/

namespace Sys2Proof.Machine

/-- A sign as a factor. -/
def signFactor (neg : Bool) : ℚ := if neg then -1 else 1

@[simp] theorem abs_signFactor (neg : Bool) : |signFactor neg| = 1 := by
  cases neg <;> simp [signFactor]

theorem signFactor_not (neg : Bool) : signFactor (!neg) = -signFactor neg := by
  cases neg <;> simp [signFactor]

theorem signFactor_xor (a b : Bool) : signFactor (a ^^ b) = signFactor a * signFactor b := by
  cases a <;> cases b <;> simp [signFactor]

theorem cast_signedUnits (neg : Bool) (n : Nat) :
    ((signedUnits neg n : ℤ) : ℚ) = signFactor neg * n := by
  cases neg <;> simp [signedUnits, signFactor]

end Sys2Proof.Machine

namespace Sys2Proof.Machine.FloatFormat

variable {f : FloatFormat} {p q m n : Nat}

/-- A format with a fraction field, and an exponent field of at least two bits: what the arithmetic
asks of binary32 and binary64. -/
structure Regular (f : FloatFormat) : Prop where
  frac : 1 ≤ f.fracBits
  exp : 2 ≤ f.expBits

/-- The least subnormal is one unit in the last place of the least scale. -/
theorem Regular.toRat_one (hf : f.Regular) : f.toRat 1 = 1 / 2 ^ f.fracBits * 2 ^ (1 - f.bias) := by
  have hfrac : 1 < 2 ^ f.fracBits := Nat.one_lt_two_pow (Nat.one_le_iff_ne_zero.mp hf.frac)
  have hsign : 1 < 2 ^ (f.fracBits + f.expBits) :=
    Nat.one_lt_two_pow (by have := hf.frac; omega)
  simp [toRat, expField, fracField, signOf, Nat.div_eq_of_lt hfrac, Nat.mod_eq_of_lt hfrac,
    Nat.div_eq_of_lt hsign]

/-- The least subnormal is `2 ^ -unitExp`. -/
theorem Regular.toRat_one_eq_inv (hf : f.Regular) : f.toRat 1 = (2 ^ f.unitExp)⁻¹ := by
  have hexp : 2 ≤ 2 ^ (f.expBits - 1) := Nat.le_self_pow (by have := hf.exp; omega) 2
  have hunit : (f.unitExp : ℤ) = f.fracBits - (1 - f.bias) := by
    rw [unitExp, bias, Nat.cast_add, Nat.cast_sub hexp]
    push_cast
    ring
  rw [hf.toRat_one, ← zpow_natCast 2 f.unitExp, hunit,
    zpow_sub₀ two_ne_zero (f.fracBits : ℤ), zpow_natCast, inv_div]
  ring

theorem Regular.toRat_one_pos (hf : f.Regular) : 0 < f.toRat 1 := by
  rw [hf.toRat_one_eq_inv]
  positivity

/-- A pattern stands for its signed units (R23). -/
theorem Regular.toRat_eq (hf : f.Regular) (p : Nat) :
    f.toRat p = signFactor (f.signOf p) * f.units (p % f.signBit) * f.toRat 1 := by
  have hmag : (if f.expField p = 0 then (f.fracField p : ℚ) / 2 ^ f.fracBits * 2 ^ (1 - f.bias)
      else (1 + (f.fracField p : ℚ) / 2 ^ f.fracBits) * 2 ^ ((f.expField p : ℤ) - f.bias)) =
      (f.units (p % f.signBit) : ℚ) * f.toRat 1 := by
    rw [hf.toRat_one, units, ← expField_eq, ← fracField_eq]
    split
    · ring
    · next hexp =>
      obtain ⟨e, he⟩ := Nat.exists_eq_succ_of_ne_zero hexp
      have hpow : (2 : ℚ) ^ ((f.expField p : ℤ) - f.bias) = 2 ^ e * 2 ^ (1 - f.bias) := by
        rw [he, ← zpow_natCast, ← zpow_add₀ two_ne_zero]
        congr 1
        push_cast
        ring
      rw [hpow, he]
      push_cast
      field_simp
  rw [toRat, hmag]
  cases f.signOf p <;> simp [signFactor]

theorem Regular.toRat_pack (hf : f.Regular) {neg : Bool} (hm : m < f.signBit) :
    f.toRat (f.pack neg m) = signFactor neg * f.units m * f.toRat 1 := by
  rw [hf.toRat_eq, signOf_pack hm, pack_mod hm]

/-! ### The two greatest scales, and half way between them -/

theorem Regular.infMag_eq (hf : f.Regular) :
    f.infMag = (2 ^ f.expBits - 3) * 2 ^ f.fracBits + 2 * 2 ^ f.fracBits := by
  have : 4 ≤ 2 ^ f.expBits := Nat.pow_le_pow_right (n := 2) (by decide) hf.exp
  rw [infMag, ← Nat.add_mul]
  congr 1
  omega

theorem Regular.infMag_pos (hf : f.Regular) : 0 < f.infMag := by
  have : 0 < 2 ^ f.fracBits := Nat.two_pow_pos _
  rw [hf.infMag_eq]
  omega

/-- The magnitude of the infinities is even, so that of the greatest finite numbers is odd. -/
theorem Regular.infMag_mod_two (hf : f.Regular) : f.infMag % 2 = 0 := by
  obtain ⟨n, hn⟩ := Nat.exists_eq_add_of_le' hf.frac
  rw [infMag, hn, pow_succ, ← Nat.mul_assoc, Nat.mul_mod_left]

theorem Regular.units_infMag (hf : f.Regular) :
    f.units f.infMag = 2 * 2 ^ f.fracBits * 2 ^ (2 ^ f.expBits - 3) := by
  rw [hf.infMag_eq, units_scaled le_rfl (.inr (by omega))]

theorem Regular.units_infMag_sub_one (hf : f.Regular) :
    f.units (f.infMag - 1) = (2 * 2 ^ f.fracBits - 1) * 2 ^ (2 ^ f.expBits - 3) := by
  have : 0 < 2 ^ f.fracBits := Nat.two_pow_pos _
  rw [hf.infMag_eq, Nat.add_sub_assoc (by omega), units_scaled (Nat.sub_le _ _) (.inr (by omega))]

/-- The bound of overflow is half way from the greatest finite number to where the next would be. -/
theorem Regular.overflowBound_eq (hf : f.Regular) : f.overflowBound =
    (f.units (f.infMag - 1) + f.units f.infMag : ℚ) / 2 * f.toRat 1 := by
  have hpos : 1 ≤ 2 * 2 ^ f.fracBits := by have := Nat.two_pow_pos f.fracBits; omega
  have hexp : 3 ≤ 2 ^ f.expBits :=
    (by decide : 3 ≤ 2 ^ 2).trans (Nat.pow_le_pow_right (n := 2) (by decide) hf.exp)
  have hscale : ((2 ^ f.expBits - 3 : Nat) : ℤ) = f.bias + f.bias - 1 := by
    obtain ⟨k, hk⟩ := Nat.exists_eq_add_of_le' (one_le_two.trans hf.exp)
    rw [Nat.cast_sub hexp, bias, hk, Nat.add_sub_cancel]
    push_cast
    ring
  have hpow : (2 : ℚ) ^ (2 ^ f.expBits - 3) * 2 ^ (1 - f.bias) = 2 ^ f.bias := by
    rw [← zpow_natCast, hscale, ← zpow_add₀ two_ne_zero]
    congr 1
    ring
  rw [hf.units_infMag_sub_one, hf.units_infMag, hf.toRat_one, overflowBound, ← hpow]
  push_cast [hpos]
  field_simp
  ring

end Sys2Proof.Machine.FloatFormat
end

section
/-! PROOFS. Rounding to nearest, ties to even (40_tagged_value_alu.md R120; log 14). First in units
and magnitudes without an upper end, then with the infinities, then as patterns and rationals. -/

namespace Sys2Proof.Machine.FloatFormat

variable {f : FloatFormat} {x : ℚ} {r lo m : Nat}

/-- `r` is the magnitude whose units are nearest to `x`, the even one of two that are as near; there
is no greatest magnitude here. -/
structure NearestEven (f : FloatFormat) (x : ℚ) (r : Nat) : Prop where
  nearest : ∀ m, |(f.units r : ℚ) - x| ≤ |(f.units m : ℚ) - x|
  tiesToEven : ∀ m, |(f.units m : ℚ) - x| = |(f.units r : ℚ) - x| → m ≠ r → r % 2 = 0

theorem units_le_units {m n : Nat} (h : m ≤ n) : (f.units m : ℚ) ≤ f.units n :=
  Nat.cast_le.mpr (f.units_strictMono.monotone h)

theorem units_lt_units {m n : Nat} (h : m < n) : (f.units m : ℚ) < f.units n :=
  Nat.cast_lt.mpr (f.units_strictMono h)

/-- Between two neighbours the lower is right up to half way, where it must be even. -/
theorem nearestEven_lower (hlo : f.units lo ≤ x)
    (hhalf : 2 * x ≤ f.units lo + f.units (lo + 1))
    (htie : 2 * x = f.units lo + f.units (lo + 1) → lo % 2 = 0) : f.NearestEven x lo := by
  have hself : |(f.units lo : ℚ) - x| = x - f.units lo := by
    rw [abs_sub_comm, abs_of_nonneg (sub_nonneg.mpr hlo)]
  refine ⟨fun m => ?_, fun m heq hne => ?_⟩
  · rw [hself]
    obtain hm | hm := Nat.lt_or_ge lo m
    · have := units_le_units (f := f) (Nat.succ_le_of_lt hm)
      rw [abs_of_nonneg (by linarith)]
      linarith
    · have := units_le_units (f := f) hm
      rw [abs_of_nonpos (by linarith)]
      linarith
  · rw [hself] at heq
    obtain hm | hm := Nat.lt_or_gt_of_ne hne
    · have := units_lt_units (f := f) hm
      rw [abs_of_nonpos (by linarith)] at heq
      linarith
    · have := units_le_units (f := f) (Nat.succ_le_of_lt hm)
      rw [abs_of_nonneg (by linarith)] at heq
      exact htie (by linarith)

/-- The upper is right from half way on, where it must be even. -/
theorem nearestEven_upper (hup : x < f.units (lo + 1))
    (hhalf : f.units lo + f.units (lo + 1) ≤ 2 * x)
    (htie : 2 * x = f.units lo + f.units (lo + 1) → (lo + 1) % 2 = 0) :
    f.NearestEven x (lo + 1) := by
  have hself : |(f.units (lo + 1) : ℚ) - x| = f.units (lo + 1) - x :=
    abs_of_nonneg (sub_nonneg.mpr hup.le)
  refine ⟨fun m => ?_, fun m heq hne => ?_⟩
  · rw [hself]
    obtain hm | hm := Nat.lt_or_ge lo m
    · have := units_le_units (f := f) (Nat.succ_le_of_lt hm)
      rw [abs_of_nonneg (by linarith)]
      linarith
    · have := units_le_units (f := f) hm
      rw [abs_of_nonpos (by linarith)]
      linarith
  · rw [hself] at heq
    obtain hm | hm := Nat.lt_or_gt_of_ne hne
    · have := units_le_units (f := f) (Nat.le_of_lt_succ hm)
      rw [abs_of_nonpos (by linarith)] at heq
      exact htie (by linarith)
    · have := units_lt_units (f := f) hm
      rw [abs_of_nonneg (by linarith)] at heq
      linarith

/-! ### The model's rounding -/

/-- The scale `roundMag` works at: that of the binade the quotient lies in, or the least. -/
def roundScale (f : FloatFormat) (num den : Nat) : Nat := Nat.log2 (num / den) - f.fracBits

/-- At that scale the quotient's whole part is a significand, subnormal only at the least scale. -/
theorem significand_bounds (f : FloatFormat) (num den : Nat) :
    num / (den * 2 ^ f.roundScale num den) < 2 * 2 ^ f.fracBits ∧
      (f.roundScale num den = 0 ∨
        2 ^ f.fracBits ≤ num / (den * 2 ^ f.roundScale num den)) := by
  have hpos := Nat.two_pow_pos (f.roundScale num den)
  rw [← Nat.div_div_eq_div_mul]
  by_cases hq : num / den = 0
  · simp [hq, roundScale]
  · have hlt : num / den < 2 ^ (Nat.log2 (num / den) + 1) := Nat.lt_log2_self
    have hle : 2 ^ Nat.log2 (num / den) ≤ num / den := Nat.log2_self_le hq
    constructor
    · rw [Nat.div_lt_iff_lt_mul hpos, ← Nat.pow_succ', ← Nat.pow_add]
      exact hlt.trans_le (Nat.pow_le_pow_right two_pos (by unfold roundScale; omega))
    · rw [Nat.le_div_iff_mul_le hpos, ← Nat.pow_add]
      refine (Nat.eq_zero_or_pos _).imp_right fun hscale => ?_
      have hsum : f.fracBits + f.roundScale num den = Nat.log2 (num / den) := by
        unfold roundScale at hscale ⊢
        omega
      rwa [hsum]

/-- Whether `roundMag` rounds the quotient by `d` up: more than a half is left, or a half and the
whole part is odd. -/
def roundUp (num d : Nat) : Bool :=
  decide (d < 2 * (num % d)) || (decide (2 * (num % d) = d) && decide (num / d % 2 = 1))

theorem le_of_roundUp {num d : Nat} (h : roundUp num d = true) : d ≤ 2 * (num % d) := by
  simp only [roundUp, Bool.or_eq_true, Bool.and_eq_true, decide_eq_true_eq] at h
  omega

theorem le_of_not_roundUp {num d : Nat} (h : roundUp num d = false) : 2 * (num % d) ≤ d := by
  simp only [roundUp, Bool.or_eq_false_iff, decide_eq_false_iff_not] at h
  omega

theorem roundUp_of_tie {num d : Nat} (h : 2 * (num % d) = d) :
    roundUp num d = decide (num / d % 2 = 1) := by
  simp [roundUp, h]

/-- `roundMag` at its scale. -/
theorem roundMag_eq (f : FloatFormat) (num den : Nat) : f.roundMag num den =
    min (f.roundScale num den * 2 ^ f.fracBits +
      if roundUp num (den * 2 ^ f.roundScale num den) then
        num / (den * 2 ^ f.roundScale num den) + 1
      else num / (den * 2 ^ f.roundScale num den)) f.infMag := rfl

/-- A quotient as a whole number and a fraction at a scale. -/
theorem cast_div_eq (num : Nat) {den : Nat} (hden : 0 < den) (e : Nat) :
    (num / den : ℚ) = ((num / (den * 2 ^ e) : Nat) +
      ((num % (den * 2 ^ e) : Nat) : ℚ) / (den * 2 ^ e : Nat)) * 2 ^ e := by
  have hnum : (num : ℚ) = (num / (den * 2 ^ e) : Nat) * (den * 2 ^ e : Nat) +
      (num % (den * 2 ^ e) : Nat) := by
    exact_mod_cast (Nat.div_add_mod' num (den * 2 ^ e)).symm
  have hdenq : (den : ℚ) ≠ 0 := Nat.cast_ne_zero.mpr hden.ne'
  have hd : ((den * 2 ^ e : Nat) : ℚ) ≠ 0 :=
    Nat.cast_ne_zero.mpr (Nat.mul_pos hden (Nat.two_pow_pos e)).ne'
  rw [add_div' _ _ _ hd, ← hnum]
  push_cast
  field_simp

/-- At a scale, the significand and the fraction of a unit in its last place that is left decide the
rounding. -/
theorem nearestEven_scaled (hf : 1 ≤ f.fracBits) {e n : Nat} (hn : n < 2 * 2 ^ f.fracBits)
    (h : e = 0 ∨ 2 ^ f.fracBits ≤ n) {t : ℚ} (ht0 : 0 ≤ t) (ht1 : t < 1) {up : Bool}
    (hup : up = true → 1 ≤ 2 * t) (hdown : up = false → 2 * t ≤ 1)
    (htie : 2 * t = 1 → up = decide (n % 2 = 1)) :
    f.NearestEven ((n + t) * 2 ^ e) (e * 2 ^ f.fracBits + if up then n + 1 else n) := by
  have hlo : (f.units (e * 2 ^ f.fracBits + n) : ℚ) = n * 2 ^ e := by
    exact_mod_cast units_scaled hn.le h
  have hhi : (f.units (e * 2 ^ f.fracBits + n + 1) : ℚ) = (n + 1) * 2 ^ e := by
    exact_mod_cast units_scaled hn (h.imp_right Nat.le_succ_of_le)
  have hscale : e * 2 ^ f.fracBits % 2 = 0 :=
    Nat.mod_eq_zero_of_dvd (Dvd.dvd.mul_left (dvd_pow_self 2 (by omega)) e)
  have hc : (0 : ℚ) < 2 ^ e := by positivity
  have hsum : 2 * ((n + t) * 2 ^ e) = (n * 2 ^ e + (n + 1) * 2 ^ e) + (2 * t - 1) * 2 ^ e := by ring
  have hhalf (heq : 2 * ((n + t) * 2 ^ e) = n * 2 ^ e + (n + 1) * 2 ^ e) : 2 * t = 1 := by
    have hzero : (2 * t - 1) * 2 ^ e = 0 := by linarith
    linarith [(mul_eq_zero.mp hzero).resolve_right hc.ne']
  cases up with
  | false =>
    change f.NearestEven _ (e * 2 ^ f.fracBits + n)
    refine nearestEven_lower ?_ ?_ fun heq => ?_
    · rw [hlo]
      nlinarith
    · rw [hlo, hhi, hsum]
      nlinarith [hdown rfl]
    · rw [hlo, hhi] at heq
      have heven := of_decide_eq_false (htie (hhalf heq)).symm
      omega
  | true =>
    change f.NearestEven _ (e * 2 ^ f.fracBits + n + 1)
    refine nearestEven_upper ?_ ?_ fun heq => ?_
    · rw [hhi]
      nlinarith
    · rw [hlo, hhi, hsum]
      nlinarith [hup rfl]
    · rw [hlo, hhi] at heq
      have hodd := of_decide_eq_true (htie (hhalf heq)).symm
      omega

/-- Before overflow is looked at, `roundMag` gives the nearest magnitude, the even one of two
(R120). -/
theorem exists_nearestEven_roundMag (hf : 1 ≤ f.fracBits) (num : Nat) {den : Nat} (hden : 0 < den) :
    ∃ r, f.NearestEven (num / den) r ∧ f.roundMag num den = min r f.infMag := by
  obtain ⟨hsig, hsub⟩ := significand_bounds f num den
  refine ⟨_, ?_, roundMag_eq f num den⟩
  generalize f.roundScale num den = e at hsig hsub ⊢
  have hdpos : 0 < den * 2 ^ e := Nat.mul_pos hden (Nat.two_pow_pos e)
  rw [cast_div_eq num hden e]
  refine nearestEven_scaled hf hsig hsub (by positivity) ?_ (fun hup => ?_) (fun hdown => ?_)
    fun htie => ?_
  · rw [div_lt_one (Nat.cast_pos.mpr hdpos)]
    exact_mod_cast Nat.mod_lt num hdpos
  · rw [← mul_div_assoc, one_le_div (Nat.cast_pos.mpr hdpos)]
    exact_mod_cast le_of_roundUp hup
  · rw [← mul_div_assoc, div_le_one (Nat.cast_pos.mpr hdpos)]
    exact_mod_cast le_of_not_roundUp hdown
  · rw [← mul_div_assoc, div_eq_one_iff_eq (Nat.cast_pos.mpr hdpos).ne'] at htie
    exact roundUp_of_tie (by exact_mod_cast htie)

end Sys2Proof.Machine.FloatFormat
end

section
/-! PROOFS. Rounding as the statements say it: of patterns and rationals, with the infinities (R120;
log 14). -/

namespace Sys2Proof.Machine.FloatFormat

variable {f : FloatFormat} {x : ℚ} {r : Nat} {neg : Bool}

/-! Overflow: the greatest finite magnitude is odd, so half way up from it is rounded to the
infinity. -/

/-- From half way above the greatest finite magnitude on, the nearest magnitude is beyond it. -/
theorem NearestEven.infMag_le (hf : f.Regular) (hr : f.NearestEven x r)
    (hx : (f.units (f.infMag - 1) + f.units f.infMag : ℚ) / 2 ≤ x) : f.infMag ≤ r := by
  by_contra hlt
  have hpos := hf.infMag_pos
  have hgap : (f.units (f.infMag - 1) : ℚ) < f.units f.infMag := units_lt_units (by omega)
  have hle : (f.units r : ℚ) ≤ f.units (f.infMag - 1) := units_le_units (by omega)
  have hself : |(f.units r : ℚ) - x| = x - f.units r := by
    rw [abs_sub_comm, abs_of_nonneg (by linarith)]
  have hnear := hr.nearest f.infMag
  have htie : |(f.units f.infMag : ℚ) - x| = |(f.units r : ℚ) - x| := by
    refine le_antisymm ?_ hnear
    rw [hself, abs_le]
    constructor <;> linarith
  have heven := hr.tiesToEven f.infMag htie (by omega)
  have hodd : r = f.infMag - 1 := by
    refine f.units_strictMono.injective (Nat.cast_injective (R := ℚ) (le_antisymm hle ?_))
    obtain hxle | hxle := le_total x (f.units f.infMag)
    · rw [htie.symm.trans (abs_of_nonneg (sub_nonneg.mpr hxle))] at hself
      linarith
    · rw [htie.symm.trans (abs_of_nonpos (sub_nonpos.mpr hxle))] at hself
      linarith
  have := hf.infMag_mod_two
  omega

/-- Below it, the nearest magnitude is finite. -/
theorem NearestEven.lt_infMag (hf : f.Regular) (hr : f.NearestEven x r)
    (hx : x < (f.units (f.infMag - 1) + f.units f.infMag : ℚ) / 2) : r < f.infMag := by
  by_contra hge
  have hpos := hf.infMag_pos
  have hgap : (f.units (f.infMag - 1) : ℚ) < f.units f.infMag := units_lt_units (by omega)
  have hle : (f.units f.infMag : ℚ) ≤ f.units r := units_le_units (by omega)
  have hnear := hr.nearest (f.infMag - 1)
  rw [abs_of_nonneg (by linarith), le_abs] at hnear
  obtain h | h := hnear <;> linarith

/-! Magnitudes as patterns. -/

theorem Regular.abs_toRat (hf : f.Regular) (p : Nat) :
    |f.toRat p| = f.units (p % f.signBit) * f.toRat 1 := by
  rw [hf.toRat_eq, abs_mul, abs_mul, abs_signFactor, one_mul, Nat.abs_cast,
    abs_of_pos hf.toRat_one_pos]

theorem pack_mod_two (hf : f.Regular) (neg : Bool) (m : Nat) : f.pack neg m % 2 = m % 2 := by
  have hexp := hf.exp
  have heven : f.signBit % 2 = 0 :=
    Nat.mod_eq_zero_of_dvd (dvd_pow_self 2 (show f.fracBits + f.expBits ≠ 0 by omega))
  unfold pack
  split <;> omega

/-- Two numbers of one size that are as far from a third one and differ are opposite, and it is
zero. -/
theorem eq_zero_of_abs_sub_eq {a b y : ℚ} (hsize : |b| = |a|) (hdist : |b - y| = |a - y|)
    (hne : b ≠ a) : y = 0 := by
  have hneg : b = -a := (abs_eq_abs.mp hsize).resolve_left hne
  have ha : a ≠ 0 := fun ha => hne (by simp [hneg, ha])
  have hsq : (-a - y) ^ 2 = (a - y) ^ 2 := sq_eq_sq_iff_abs_eq_abs _ _ |>.mpr (hneg ▸ hdist)
  have hprod : a * y = 0 := by linarith
  exact (mul_eq_zero.mp hprod).resolve_left ha

/-! Signs aside, a pattern is at least as far from a number as its magnitude is, and exactly as far
with the number's own sign. -/

theorem Regular.abs_toRat_pack_sub (hf : f.Regular) (neg : Bool) (x : ℚ) (hr : r < f.signBit) :
    |f.toRat (f.pack neg r) - signFactor neg * x * f.toRat 1| =
      |(f.units r : ℚ) - x| * f.toRat 1 := by
  rw [hf.toRat_pack hr, ← sub_mul, ← mul_sub, abs_mul, abs_mul, abs_signFactor, one_mul,
    abs_of_pos hf.toRat_one_pos]

theorem Regular.abs_signFactor_mul (hf : f.Regular) (neg : Bool) (hx : 0 ≤ x) :
    |signFactor neg * x * f.toRat 1| = x * f.toRat 1 := by
  rw [abs_mul, abs_mul, abs_signFactor, one_mul, abs_of_nonneg hx, abs_of_pos hf.toRat_one_pos]

theorem Regular.abs_units_sub_le (hf : f.Regular) (neg : Bool) (hx : 0 ≤ x) (q : Nat) :
    |(f.units (q % f.signBit) : ℚ) - x| * f.toRat 1 ≤
      |f.toRat q - signFactor neg * x * f.toRat 1| := by
  calc |(f.units (q % f.signBit) : ℚ) - x| * f.toRat 1
      = |(|f.toRat q| - |signFactor neg * x * f.toRat 1|)| := by
        rw [hf.abs_toRat, hf.abs_signFactor_mul neg hx, ← sub_mul, abs_mul,
          abs_of_pos hf.toRat_one_pos]
    _ ≤ |f.toRat q - signFactor neg * x * f.toRat 1| := abs_abs_sub_abs_le _ _

/-- If another number of the format is as near as the one of the nearest magnitude, that magnitude
is even. -/
theorem NearestEven.even_of_tie (hf : f.Regular) (hr : f.NearestEven x r) (hx : 0 ≤ x)
    (hlt : r < f.signBit) {q : Nat}
    (heq : |f.toRat q - signFactor neg * x * f.toRat 1| =
      |f.toRat (f.pack neg r) - signFactor neg * x * f.toRat 1|)
    (hne : f.toRat q ≠ f.toRat (f.pack neg r)) : r % 2 = 0 := by
  have hunit := hf.toRat_one_pos
  have hle := heq ▸ hf.abs_units_sub_le neg hx q
  rw [hf.abs_toRat_pack_sub neg x hlt, mul_le_mul_iff_of_pos_right hunit] at hle
  refine hr.tiesToEven (q % f.signBit) (le_antisymm hle (hr.nearest _)) fun hm => hne ?_
  -- The other number has the same magnitude, so the two are opposite and what is rounded is zero.
  have hsize : |f.toRat q| = |f.toRat (f.pack neg r)| := by
    rw [hf.abs_toRat, hf.abs_toRat, pack_mod hlt, hm]
  by_contra hdiff
  have hy : |signFactor neg * x * f.toRat 1| = 0 :=
    abs_eq_zero.mpr (eq_zero_of_abs_sub_eq hsize heq hdiff)
  rw [hf.abs_signFactor_mul neg hx] at hy
  have hx0 : x = 0 := (mul_eq_zero.mp hy).resolve_right hunit.ne'
  have hnear := hr.nearest 0
  simp only [hx0, units_zero, Nat.cast_zero, sub_zero, abs_zero, abs_nonpos_iff] at hnear
  have hzero : |f.toRat q| = 0 := by rw [hf.abs_toRat, hm, hnear, zero_mul]
  exact hdiff ((abs_eq_zero.mp hzero).trans (abs_eq_zero.mp (hsize ▸ hzero)).symm)

/-- The magnitude nearest to a number, with a sign before both, is the number correctly rounded. -/
theorem NearestEven.roundsTo (hf : f.Regular) (hr : f.NearestEven x r) (hx : 0 ≤ x) (neg : Bool) :
    f.RoundsTo (signFactor neg * x * f.toRat 1) (f.pack neg (min r f.infMag)) := by
  have hunit := hf.toRat_one_pos
  have hxunit : 0 ≤ x * f.toRat 1 := mul_nonneg hx hunit.le
  have hmin : min r f.infMag < f.signBit := (Nat.min_le_right _ _).trans_lt f.infMag_lt_signBit
  have hover : f.overflowBound ≤ |signFactor neg * x * f.toRat 1| ↔
      (f.units (f.infMag - 1) + f.units f.infMag : ℚ) / 2 ≤ x := by
    rw [hf.overflowBound_eq, hf.abs_signFactor_mul neg hx, mul_le_mul_iff_of_pos_right hunit]
  have hbelow (h : |signFactor neg * x * f.toRat 1| < f.overflowBound) : r < f.infMag :=
    hr.lt_infMag hf (lt_of_not_ge fun hge => h.not_ge (hover.mpr hge))
  refine ⟨fun h => ?_, fun h => ?_, fun h q hq => ?_, fun h q hq heq hne => ?_, fun h => ?_,
    fun h => ?_⟩
  · rw [infinite_iff, pack_mod hmin, Nat.min_eq_right (hr.infMag_le hf (hover.mp h))]
  · rw [finite_iff, pack_mod hmin]
    exact (Nat.min_le_left _ _).trans_lt (hbelow h)
  · have hlt := (hbelow h).trans f.infMag_lt_signBit
    rw [Nat.min_eq_left (hbelow h).le, hf.abs_toRat_pack_sub neg x hlt]
    exact (mul_le_mul_of_nonneg_right (hr.nearest _) hunit.le).trans
      (hf.abs_units_sub_le neg hx q)
  · have hlt := (hbelow h).trans f.infMag_lt_signBit
    rw [Nat.min_eq_left (hbelow h).le] at heq hne ⊢
    rw [pack_mod_two hf]
    exact hr.even_of_tie hf hx hlt heq hne
  · rw [signOf_pack hmin]
    by_contra hneg
    simp only [signFactor, if_neg hneg] at h
    linarith
  · rw [signOf_pack hmin]
    by_contra hneg
    simp only [signFactor, if_pos (Bool.not_eq_false neg |>.mp hneg)] at h
    linarith

/-- A sign and the magnitude `roundMag` gives for a quotient of units are the signed quotient
correctly rounded (R120). -/
theorem Regular.roundsTo_pack_roundMag (hf : f.Regular) (neg : Bool) (num : Nat) {den : Nat}
    (hden : 0 < den) :
    f.RoundsTo (signFactor neg * (num / den) * f.toRat 1) (f.pack neg (f.roundMag num den)) := by
  obtain ⟨r, hr, hround⟩ := exists_nearestEven_roundMag hf.frac num hden
  rw [hround]
  exact hr.roundsTo hf (by positivity) neg

end Sys2Proof.Machine.FloatFormat

namespace Sys2Proof

open Sys2Proof.Machine Sys2Proof.Claims

variable {k : Kind} {f : FloatFormat}

/-- Both formats are regular (R23). -/
theorem regular_of_formatOf (h : FormatOf k f) : f.Regular := by
  obtain ⟨_, rfl⟩ | ⟨_, rfl⟩ := h
  · exact ⟨by decide, by decide⟩
  · exact ⟨by decide, by decide⟩

/-- Settles O41: the magnitude `roundMag` gives, as the pattern without a sign. -/
theorem roundingIsNearestEven : Obligations.RoundingIsNearestEven := by
  intro k f num den hformat hden
  have hround := (regular_of_formatOf hformat).roundsTo_pack_roundMag false num hden
  simpa [signFactor, FloatFormat.pack] using hround

end Sys2Proof
end

section
/-! PROOFS. Float operands of an instruction, and CMP on them (42_compare_branch.md section 2;
40_tagged_value_alu.md R114; log 14). -/

namespace Sys2Proof

open Sys2Proof.Machine Sys2Proof.Claims
open Sys2Proof.Machine.FloatFormat (unpack_of_finite unpack_of_infinite unpack_of_notANumber)

variable {k : Kind} {f : FloatFormat} {v : Value} {p q : Nat}

/-! The two float kinds and their formats (R23). -/

theorem floatFormat_of_formatOf (h : FormatOf k f) : floatFormat k = f := by
  obtain ⟨rfl, rfl⟩ | ⟨rfl, rfl⟩ := h <;> rfl

theorem isFloat_of_formatOf (h : FormatOf k f) : k.isFloat = true := by
  obtain ⟨rfl, _⟩ | ⟨rfl, _⟩ := h <;> rfl

theorem two_pow_width_of_formatOf (h : FormatOf k f) : 2 ^ k.width = 2 * f.signBit := by
  obtain ⟨rfl, rfl⟩ | ⟨rfl, rfl⟩ := h <;> decide

theorem floatNum_of_formatOf (h : FormatOf k f) (hk : v.kind = k) (hp : uval v = p) :
    floatNum v = f.unpack p := by
  rw [floatNum, hk, hp, floatFormat_of_formatOf h]

theorem lt_of_formatOf (h : FormatOf k f) (hk : v.kind = k) (hp : uval v = p) :
    p < 2 * f.signBit := by
  rw [← two_pow_width_of_formatOf h, ← hk, ← hp]
  exact v.bits.isLt

/-- The numbers patterns stand for compare as their signed units do. -/
theorem toRat_cmp_iff (hf : f.Regular) (p q : Nat) :
    (signedUnits (f.signOf p) (f.units (p % f.signBit)) =
        signedUnits (f.signOf q) (f.units (q % f.signBit)) ↔ f.toRat p = f.toRat q) ∧
      (signedUnits (f.signOf p) (f.units (p % f.signBit)) >
        signedUnits (f.signOf q) (f.units (q % f.signBit)) ↔ f.toRat p > f.toRat q) := by
  rw [hf.toRat_eq p, hf.toRat_eq q, ← cast_signedUnits, ← cast_signedUnits, gt_iff_lt, gt_iff_lt,
    mul_lt_mul_iff_of_pos_right hf.toRat_one_pos, mul_left_inj' hf.toRat_one_pos.ne']
  exact ⟨Int.cast_inj.symm, Int.cast_lt.symm⟩

/-- Settles O29: by the class each pattern is read as. -/
theorem cmpComparesFloats : Obligations.CmpComparesFloats := by
  intro r1 r2 s k f p q hformat h1 h2 hk1 hk2 hp hq
  have hfloat : (s.reg ⟨r1.toNat, h1⟩).kind.isFloat = true :=
    hk1 ▸ isFloat_of_formatOf hformat
  have hplt := lt_of_formatOf hformat hk1 hp
  have hqlt := lt_of_formatOf hformat hk2 hq
  refine ⟨(f.unpack p).eq (f.unpack q), (f.unpack p).gt (f.unpack q), ?_, fun hnan => ?_,
    fun hfp hfq => ?_, fun hip hiq => ?_, fun hip hfq => ?_, fun hfp hiq => ?_⟩
  · rw [exec_cmp_of_sameNumeric h1 h2 ⟨hk1.trans hk2.symm, numericKind_of_isFloat hfloat⟩]
    simp only [cmpEq, cmpGt, if_pos hfloat, floatNum_of_formatOf hformat hk1 hp,
      floatNum_of_formatOf hformat hk2 hq]
  · obtain hnan | hnan := hnan
    · simp [unpack_of_notANumber hnan, FloatNum.eq, FloatNum.gt]
    · rw [unpack_of_notANumber hnan]
      cases f.unpack p <;> simp [FloatNum.eq, FloatNum.gt]
  · rw [unpack_of_finite hplt hfp, unpack_of_finite hqlt hfq,
      FloatNum.eq, FloatNum.gt, decide_eq_true_iff, decide_eq_true_iff]
    exact toRat_cmp_iff (regular_of_formatOf hformat) p q
  · simp [unpack_of_infinite hplt hip, unpack_of_infinite hqlt hiq,
      FloatNum.eq, FloatNum.gt]
  · simp [unpack_of_infinite hplt hip, unpack_of_finite hqlt hfq,
      FloatNum.eq, FloatNum.gt]
  · simp [unpack_of_finite hplt hfp, unpack_of_infinite hqlt hiq,
      FloatNum.eq, FloatNum.gt]

end Sys2Proof
end

section
/-! PROOFS. The four float instructions as one shape (44_alu_ops.md R170; 40_tagged_value_alu.md
R120, R121). -/

namespace Sys2Proof

open Sys2Proof.Machine Sys2Proof.Claims

variable {mk : RegIndex → RegIndex → Instr} {g : FloatFormat → FloatNum → FloatNum → Option Nat}
  {alu : Value → Value → Except ExecutionError AluResult} {r1 r2 : RegIndex} {s : State} {k : Kind}
  {f : FloatFormat} {p q x : Nat} {P : Nat → Prop}

theorem left_lt_of_floatOperands (h : FloatOperands s r1 r2 k f p q) : p < 2 * f.signBit :=
  lt_of_formatOf h.format h.kind1 h.bits1

theorem right_lt_of_floatOperands (h : FloatOperands s r1 r2 k f p q) : q < 2 * f.signBit :=
  lt_of_formatOf h.format h.kind2 h.bits2

/-- On float operands an instruction pushes what `g` answers for the numbers they read as. -/
def IsFloatOp (mk : RegIndex → RegIndex → Instr)
    (g : FloatFormat → FloatNum → FloatNum → Option Nat) : Prop :=
  ∀ (r1 r2 : RegIndex) (s : State) (k : Kind) (f : FloatFormat) (p q : Nat),
    FloatOperands s r1 r2 k f p q →
    exec (mk r1 r2) s = s.finish 3 (s.pushResult (floatResult k (g f (f.unpack p) (f.unpack q))))

/-- An instruction of the two-register shape is one if its function answers `g` on floats of one
kind. -/
theorem isFloatOp_of_alu2 (hexec : ∀ r1 r2 s, exec (mk r1 r2) s = s.finish 3 (s.alu2 alu r1 r2))
    (halu : ∀ a b, a.kind = b.kind → a.kind.isFloat = true →
      alu a b = .ok (floatResult a.kind (g (floatFormat a.kind) (floatNum a) (floatNum b)))) :
    IsFloatOp mk g := by
  intro r1 r2 s k f p q h
  have hres := halu _ _ (h.kind1.trans h.kind2.symm)
    ((congrArg Kind.isFloat h.kind1).trans (isFloat_of_formatOf h.format))
  rw [h.kind1, floatFormat_of_formatOf h.format, floatNum_of_formatOf h.format h.kind1 h.bits1,
    floatNum_of_formatOf h.format h.kind2 h.bits2] at hres
  rw [hexec, State.alu2, readOperand_of_lt h.lt1, readOperand_of_lt h.lt2]
  simp only [except_bind_ok, hres, raising_ok]

theorem isFloatOp_add : IsFloatOp .add FloatFormat.add :=
  isFloatOp_of_alu2 (fun _ _ _ => rfl) fun a b hkind hfloat => by
    simp [aluAdd, checkKinds_of ⟨hkind, numericKind_of_isFloat hfloat⟩, hfloat]

theorem isFloatOp_sub : IsFloatOp .sub FloatFormat.sub :=
  isFloatOp_of_alu2 (fun _ _ _ => rfl) fun a b hkind hfloat => by
    simp [aluSub, checkKinds_of ⟨hkind, numericKind_of_isFloat hfloat⟩, hfloat]

theorem isFloatOp_mul : IsFloatOp .mul FloatFormat.mul :=
  isFloatOp_of_alu2 (fun _ _ _ => rfl) fun a b hkind hfloat => by
    simp [aluMul, checkKinds_of ⟨hkind, numericKind_of_isFloat hfloat⟩, hfloat]

theorem isFloatOp_div : IsFloatOp .div FloatFormat.div :=
  isFloatOp_of_alu2 (fun _ _ _ => rfl) fun a b hkind hfloat => by
    simp [aluDiv, checkKinds_of ⟨hkind, numericKind_of_isFloat hfloat⟩, hfloat]

/-- A pattern `g` answers is pushed. -/
theorem IsFloatOp.pushesSome (hop : IsFloatOp mk g) (h : FloatOperands s r1 r2 k f p q)
    (hg : g f (f.unpack p) (f.unpack q) = some x) (hx : x < 2 * f.signBit) (hP : P x) :
    PushesSome (mk r1 r2) s k P := by
  have huval : uval (Value.ofNat k x) = x := by
    rw [uval_ofNat, two_pow_width_of_formatOf h.format, Nat.mod_eq_of_lt hx]
  refine ⟨Value.ofNat k x, rfl, huval.symm ▸ hP, ?_⟩
  rw [hop r1 r2 s k f p q h, hg, pushResult_eq_ok.mpr ⟨h.room, rfl⟩]
  rfl

/-- Where `g` answers none, the next NaN is drawn and pushed (R121). -/
theorem IsFloatOp.pushesDrawnNaN (hop : IsFloatOp mk g) (h : FloatOperands s r1 r2 k f p q)
    (hg : g f (f.unpack p) (f.unpack q) = none) : PushesDrawnNaN (mk r1 r2) s k := by
  rw [PushesDrawnNaN, hop r1 r2 s k f p q h, hg, pushResult_eq_ok.mpr ⟨h.room, rfl⟩]
  rfl

end Sys2Proof
end

section
/-! PROOFS. Float arithmetic on finite operands (40_tagged_value_alu.md R120; log 14). -/

namespace Sys2Proof.Machine.FloatFormat

variable {f : FloatFormat} {y : ℚ} {z : Bool} {m n : Nat}

/-- An answer is the exact result `y` correctly rounded, and has the sign `z` if that is zero. -/
def RoundsWithSign (f : FloatFormat) (y : ℚ) (z : Bool) (x : Nat) : Prop :=
  x < 2 * f.signBit ∧ f.RoundsTo y x ∧ (y = 0 → f.signOf x = z)

theorem roundMag_lt (f : FloatFormat) (num den : Nat) : f.roundMag num den < f.signBit :=
  (Nat.min_le_right _ _).trans_lt f.infMag_lt_signBit

/-- A sign and a rounded quotient of units, as an answer. -/
theorem Regular.roundsWithSign (hf : f.Regular) (neg : Bool) (num : Nat) {den : Nat}
    (hden : 0 < den) (hy : y = signFactor neg * (num / den) * f.toRat 1) (hz : y = 0 → neg = z) :
    f.RoundsWithSign y z (f.pack neg (f.roundMag num den)) :=
  ⟨pack_lt (f.roundMag_lt num den), hy ▸ hf.roundsTo_pack_roundMag neg num hden,
    fun h => (signOf_pack (f.roundMag_lt num den)).trans (hz h)⟩

/-- The sum of finite numbers, exact in units, is rounded once; a zero sum is negative if both
numbers are. -/
theorem Regular.add_fin (hf : f.Regular) (s t : Bool) (m n : Nat) :
    ∃ x, f.add (.fin s m) (.fin t n) = some x ∧ f.RoundsWithSign
      (signFactor s * m * f.toRat 1 + signFactor t * n * f.toRat 1) (s && t) x := by
  obtain ⟨d, hd⟩ : ∃ d, d = signedUnits s m + signedUnits t n := ⟨_, rfl⟩
  refine ⟨f.pack (if d = 0 then s && t else decide (d < 0)) (f.roundMag d.natAbs 1), ?_,
    hf.roundsWithSign _ _ one_pos ?_ fun hzero => if_pos ?_⟩
  · rw [add, hd]
  · have hsize : (d : ℚ) =
        signFactor (if d = 0 then s && t else decide (d < 0)) * (d.natAbs / (1 : Nat)) := by
      rw [Nat.cast_one, div_one, Nat.cast_natAbs]
      obtain hneg | rfl | hpos := lt_trichotomy d 0
      · simp [hneg, hneg.ne, signFactor, abs_of_neg]
      · simp
      · simp [hpos.ne', hpos.not_gt, signFactor, abs_of_pos hpos]
    rw [← hsize, hd, Int.cast_add, cast_signedUnits, cast_signedUnits, add_mul]
  · rw [← cast_signedUnits, ← cast_signedUnits, ← add_mul, ← Int.cast_add, ← hd] at hzero
    exact_mod_cast (mul_eq_zero.mp hzero).resolve_right hf.toRat_one_pos.ne'

/-- The product of finite numbers, an exact quotient of units, is rounded once; its sign is the
exclusive-or of theirs. -/
theorem Regular.mul_fin (hf : f.Regular) (s t : Bool) (m n : Nat) :
    ∃ x, f.mul (.fin s m) (.fin t n) = some x ∧ f.RoundsWithSign
      (signFactor s * m * f.toRat 1 * (signFactor t * n * f.toRat 1)) (s ^^ t) x := by
  refine ⟨_, rfl, hf.roundsWithSign _ _ (Nat.two_pow_pos _) ?_ fun _ => rfl⟩
  rw [signFactor_xor, hf.toRat_one_eq_inv]
  push_cast
  ring

/-- So is the quotient by a number that is not zero. -/
theorem Regular.div_fin (hf : f.Regular) (s t : Bool) (m : Nat) (hn : 0 < n) :
    ∃ x, f.div (.fin s m) (.fin t n) = some x ∧ f.RoundsWithSign
      (signFactor s * m * f.toRat 1 / (signFactor t * n * f.toRat 1)) (s ^^ t) x := by
  refine ⟨_, if_neg hn.ne', hf.roundsWithSign _ _ hn ?_ fun _ => rfl⟩
  have hnq : (n : ℚ) ≠ 0 := Nat.cast_ne_zero.mpr hn.ne'
  have hinv : (signFactor t)⁻¹ = signFactor t := by cases t <;> simp [signFactor]
  rw [signFactor_xor, hf.toRat_one_eq_inv, div_eq_mul_inv, mul_inv, mul_inv, hinv]
  push_cast
  field_simp

end Sys2Proof.Machine.FloatFormat

namespace Sys2Proof

open Sys2Proof.Machine Sys2Proof.Claims
open Sys2Proof.Machine.FloatFormat (unpack_of_finite)

/-- An instruction rounds if the function behind it does on finite numbers. -/
theorem floatOpRounds_of {mk : RegIndex → RegIndex → Instr}
    {g : FloatFormat → FloatNum → FloatNum → Option Nat} {op : ℚ → ℚ → ℚ} {nz : Bool}
    {zeroSign : Bool → Bool → Bool} (hop : IsFloatOp mk g)
    (hg : ∀ (f : FloatFormat), f.Regular → ∀ (s t : Bool) (m n : Nat), (nz = true → 0 < n) →
      ∃ x, g f (.fin s m) (.fin t n) = some x ∧ f.RoundsWithSign
        (op (signFactor s * m * f.toRat 1) (signFactor t * n * f.toRat 1)) (zeroSign s t) x) :
    FloatOpRounds mk op nz zeroSign := by
  intro r1 r2 s k f p q h hfp hfq hnz
  have hf := regular_of_formatOf h.format
  have hpos (hz : nz = true) : 0 < f.units (q % f.signBit) :=
    Nat.pos_of_ne_zero fun h0 => hnz hz
      (FloatFormat.zero_iff.mpr (FloatFormat.units_eq_zero_iff.mp h0))
  obtain ⟨x, hx, hlt, hround⟩ := hg f hf (f.signOf p) (f.signOf q) (f.units (p % f.signBit))
    (f.units (q % f.signBit)) hpos
  rw [← hf.toRat_eq, ← hf.toRat_eq] at hround
  refine hop.pushesSome h ?_ hlt hround
  rw [unpack_of_finite (left_lt_of_floatOperands h) hfp,
    unpack_of_finite (right_lt_of_floatOperands h) hfq, hx]

/-- Settles O42: the exact result in units is rounded once. -/
theorem floatArithmeticIsCorrectlyRounded : Obligations.FloatArithmeticIsCorrectlyRounded := by
  refine ⟨floatOpRounds_of isFloatOp_add fun f hf s t m n _ => hf.add_fin s t m n,
    floatOpRounds_of isFloatOp_sub fun f hf s t m n _ => ?_,
    floatOpRounds_of isFloatOp_mul fun f hf s t m n _ => ?_,
    floatOpRounds_of isFloatOp_div fun f hf s t m n hn => ?_⟩
  · have hadd := hf.add_fin s (!t) m n
    rwa [signFactor_not, neg_mul, neg_mul, ← sub_eq_add_neg] at hadd
  · exact Bool.bne_eq_xor ▸ hf.mul_fin s t m n
  · exact Bool.bne_eq_xor ▸ hf.div_fin s t m (hn rfl)

end Sys2Proof
end

section
/-! PROOFS. NaN patterns and drawn NaNs (40_tagged_value_alu.md R121; log 6, 14). -/

namespace Sys2Proof.Machine.FloatFormat

variable {f : FloatFormat} {a b : FloatNum} {p raw : Nat}

/-! A NaN operand gives a NaN result (R120). -/

theorem add_of_nan (h : a = .nan ∨ b = .nan) : f.add a b = none := by
  obtain rfl | rfl := h
  · rfl
  · cases a <;> rfl

theorem sub_of_nan (h : a = .nan ∨ b = .nan) : f.sub a b = none :=
  add_of_nan (h.imp_right (congrArg FloatNum.neg))

theorem mul_of_nan (h : a = .nan ∨ b = .nan) : f.mul a b = none := by
  obtain rfl | rfl := h
  · rfl
  · cases a <;> rfl

theorem div_of_nan (h : a = .nan ∨ b = .nan) : f.div a b = none := by
  obtain rfl | rfl := h
  · rfl
  · cases a <;> rfl

/-- A zero reads as no units. -/
theorem Regular.unpack_of_zero (hf : f.Regular) (hp : p < 2 * f.signBit) (h : f.Zero p) :
    f.unpack p = .fin (f.signOf p) 0 := by
  rw [unpack_of_finite hp (h.finite hf.infMag_pos), zero_iff.mp h, units_zero]

/-! `nanOf` gives NaN patterns only, and every one of them. -/

theorem nanOf_of_notANumber (h : f.NotANumber raw) : f.nanOf raw = raw :=
  if_pos (isNaN_iff.mpr h)

theorem nanOf_of_number (h : ¬f.NotANumber raw) : f.nanOf raw = f.infMag + 1 :=
  if_neg (mt isNaN_iff.mp h)

/-- The first pattern above the positive infinity is one of a magnitude. -/
theorem Regular.infMag_add_one_lt (hf : f.Regular) : f.infMag + 1 < f.signBit := by
  have hfrac : 1 < 2 ^ f.fracBits := Nat.one_lt_two_pow (Nat.one_le_iff_ne_zero.mp hf.frac)
  have hsum : f.infMag + 2 ^ f.fracBits = f.signBit := by
    rw [infMag, ← Nat.succ_mul, Nat.succ_eq_add_one, Nat.sub_add_cancel Nat.one_le_two_pow,
      signBit_eq, Nat.mul_comm]
  omega

theorem Regular.notANumber_nanOf (hf : f.Regular) (raw : Nat) : f.NotANumber (f.nanOf raw) := by
  by_cases h : f.NotANumber raw
  · rwa [nanOf_of_notANumber h]
  · rw [nanOf_of_number h, notANumber_iff, Nat.mod_eq_of_lt hf.infMag_add_one_lt]
    exact Nat.lt_succ_self _

theorem Regular.nanOf_lt (hf : f.Regular) (hraw : raw < 2 * f.signBit) :
    f.nanOf raw < 2 * f.signBit := by
  by_cases h : f.NotANumber raw
  · rwa [nanOf_of_notANumber h]
  · have := hf.infMag_add_one_lt
    rw [nanOf_of_number h]
    omega

end Sys2Proof.Machine.FloatFormat

namespace Sys2Proof

open Sys2Proof.Machine Sys2Proof.Claims
open Sys2Proof.Machine.FloatFormat (unpack_of_infinite unpack_of_notANumber)

variable {k : Kind} {f : FloatFormat} {r1 r2 : RegIndex} {s : State} {p q : Nat}

/-- The value made of a NaN pattern has that pattern. -/
theorem uval_ofNat_nanOf (h : FormatOf k f) {raw : Nat} (hraw : raw < 2 ^ k.width) :
    uval (Value.ofNat k (f.nanOf raw)) = f.nanOf raw := by
  rw [two_pow_width_of_formatOf h] at hraw
  rw [uval_ofNat, two_pow_width_of_formatOf h,
    Nat.mod_eq_of_lt ((regular_of_formatOf h).nanOf_lt hraw)]

/-- A NaN operand makes all four instructions push a drawn NaN. -/
theorem pushesDrawnNaN_of_notANumber (h : FloatOperands s r1 r2 k f p q)
    (hnan : f.NotANumber p ∨ f.NotANumber q) :
    PushesDrawnNaN (.add r1 r2) s k ∧ PushesDrawnNaN (.sub r1 r2) s k ∧
      PushesDrawnNaN (.mul r1 r2) s k ∧ PushesDrawnNaN (.div r1 r2) s k := by
  have hread : f.unpack p = .nan ∨ f.unpack q = .nan :=
    hnan.imp unpack_of_notANumber unpack_of_notANumber
  exact ⟨isFloatOp_add.pushesDrawnNaN h (FloatFormat.add_of_nan hread),
    isFloatOp_sub.pushesDrawnNaN h (FloatFormat.sub_of_nan hread),
    isFloatOp_mul.pushesDrawnNaN h (FloatFormat.mul_of_nan hread),
    isFloatOp_div.pushesDrawnNaN h (FloatFormat.div_of_nan hread)⟩

/-- Settles O43: by what the operands read as, and that `nanOf` gives the NaN patterns. -/
theorem floatNaNResultsAreDrawn : Obligations.FloatNaNResultsAreDrawn := by
  refine ⟨fun r1 r2 s k f p q h => ?_, fun n => ⟨rfl, ?_, rfl, ?_⟩, fun k f hformat raw hraw => ?_⟩
  · have hf := regular_of_formatOf h.format
    have hp := left_lt_of_floatOperands h
    have hq := right_lt_of_floatOperands h
    refine ⟨pushesDrawnNaN_of_notANumber h, fun hip hiq hsign => ?_, fun hip hiq hsign => ?_,
      fun hcase => ?_, fun hcase => ?_⟩
    · refine isFloatOp_add.pushesDrawnNaN h ?_
      rw [unpack_of_infinite hp hip, unpack_of_infinite hq hiq]
      exact if_neg hsign
    · refine isFloatOp_sub.pushesDrawnNaN h ?_
      rw [unpack_of_infinite hp hip, unpack_of_infinite hq hiq, hsign]
      exact if_neg (by simp)
    · refine isFloatOp_mul.pushesDrawnNaN h ?_
      obtain ⟨hzp, hiq⟩ | ⟨hip, hzq⟩ := hcase
      · rw [hf.unpack_of_zero hp hzp, unpack_of_infinite hq hiq]
        rfl
      · rw [unpack_of_infinite hp hip, hf.unpack_of_zero hq hzq]
        rfl
    · refine isFloatOp_div.pushesDrawnNaN h ?_
      obtain ⟨hzp, hzq⟩ | ⟨hip, hiq⟩ := hcase
      · rw [hf.unpack_of_zero hp hzp, hf.unpack_of_zero hq hzq]
        rfl
      · rw [unpack_of_infinite hp hip, unpack_of_infinite hq hiq]
        rfl
  · exact uval_ofNat_nanOf (.inl ⟨rfl, rfl⟩) (Config.nanDraw32 n).isLt
  · exact uval_ofNat_nanOf (.inr ⟨rfl, rfl⟩) (Config.nanDraw64 n).isLt
  · have hf := regular_of_formatOf hformat
    rw [two_pow_width_of_formatOf hformat] at hraw ⊢
    exact ⟨hf.nanOf_lt hraw, hf.notANumber_nanOf raw, FloatFormat.nanOf_of_notANumber⟩

end Sys2Proof
end

section
/-! PROOFS. Float operations on infinities, and division by zero (40_tagged_value_alu.md R120; log
14). -/

namespace Sys2Proof.Machine.FloatFormat

variable {f : FloatFormat} {p : Nat}

/-- An infinity is its sign and the magnitude of the infinities. -/
theorem pack_of_infinite (hp : p < 2 * f.signBit) (h : f.Infinite p) :
    f.pack (f.signOf p) f.infMag = p := by
  rw [← infinite_iff.mp h, pack_signOf_mod hp]

theorem infinite_pack_infMag (f : FloatFormat) (neg : Bool) : f.Infinite (f.pack neg f.infMag) :=
  infinite_iff.mpr (pack_mod f.infMag_lt_signBit)

theorem zero_pack_zero (f : FloatFormat) (neg : Bool) : f.Zero (f.pack neg 0) :=
  zero_iff.mpr (pack_mod f.signBit_pos)

/-- A finite pattern that is no zero has units. -/
theorem units_ne_zero (h : ¬f.Zero p) : f.units (p % f.signBit) ≠ 0 := fun h0 =>
  h (zero_iff.mpr (units_eq_zero_iff.mp h0))

/-- What is no NaN is an infinity or finite. -/
theorem infinite_or_finite (h : ¬f.NotANumber p) : f.Infinite p ∨ f.Finite p := by
  rw [notANumber_iff] at h
  rw [infinite_iff, finite_iff]
  omega

end Sys2Proof.Machine.FloatFormat

namespace Sys2Proof

open Sys2Proof.Machine Sys2Proof.Claims
open Sys2Proof.Machine.FloatFormat (unpack_of_finite unpack_of_infinite pack_of_infinite
  units_ne_zero infinite_or_finite)

variable {mk : RegIndex → RegIndex → Instr} {g : FloatFormat → FloatNum → FloatNum → Option Nat}
  {r1 r2 : RegIndex} {s : State} {k : Kind} {f : FloatFormat} {p q : Nat} {neg : Bool}

/-- A signed infinity that is answered is pushed. -/
theorem IsFloatOp.pushesInfinity (hop : IsFloatOp mk g) (h : FloatOperands s r1 r2 k f p q)
    (hg : g f (f.unpack p) (f.unpack q) = some (f.pack neg f.infMag)) :
    PushesSome (mk r1 r2) s k fun x => f.Infinite x ∧ f.signOf x = neg :=
  hop.pushesSome h hg (FloatFormat.pack_lt f.infMag_lt_signBit)
    ⟨f.infinite_pack_infMag neg, FloatFormat.signOf_pack f.infMag_lt_signBit⟩

/-- Settles O44: by what the operands read as, an infinity or zero of that sign is answered. -/
theorem floatInfinitiesFollowTheirSigns : Obligations.FloatInfinitiesFollowTheirSigns := by
  intro r1 r2 s k f p q h
  have hf := regular_of_formatOf h.format
  have hp := left_lt_of_floatOperands h
  have hq := right_lt_of_floatOperands h
  refine ⟨fun hip hcase => ?_, fun hfp hiq => ?_, fun hip hcase => ?_, fun hfp hiq => ?_,
    fun hcase => ?_, fun hcase => ?_, fun hfp hiq => ?_⟩
  · refine isFloatOp_add.pushesSome h ?_ hp rfl
    obtain hfq | ⟨hiq, hsign⟩ := hcase
    · rw [unpack_of_infinite hp hip, unpack_of_finite hq hfq,
        FloatFormat.add, pack_of_infinite hp hip]
    · rw [unpack_of_infinite hp hip, unpack_of_infinite hq hiq,
        FloatFormat.add, if_pos hsign, pack_of_infinite hp hip]
  · refine isFloatOp_add.pushesSome h ?_ hq rfl
    rw [unpack_of_finite hp hfp, unpack_of_infinite hq hiq,
      FloatFormat.add, pack_of_infinite hq hiq]
  · refine isFloatOp_sub.pushesSome h ?_ hp rfl
    obtain hfq | ⟨hiq, hsign⟩ := hcase
    · rw [unpack_of_infinite hp hip, unpack_of_finite hq hfq,
        FloatFormat.sub, FloatNum.neg, FloatFormat.add, pack_of_infinite hp hip]
    · rw [unpack_of_infinite hp hip, unpack_of_infinite hq hiq,
        FloatFormat.sub, FloatNum.neg, FloatFormat.add, if_pos (Bool.eq_not.mpr hsign),
        pack_of_infinite hp hip]
  · refine isFloatOp_sub.pushesInfinity h ?_
    rw [unpack_of_finite hp hfp, unpack_of_infinite hq hiq,
      FloatFormat.sub, FloatNum.neg, FloatFormat.add]
  · refine isFloatOp_mul.pushesInfinity h ?_
    rw [Bool.bne_eq_xor]
    obtain ⟨hip, hzq, hnq⟩ | ⟨hiq, hzp, hnp⟩ := hcase
    · rw [unpack_of_infinite hp hip]
      obtain hiq | hfq := infinite_or_finite hnq
      · rw [unpack_of_infinite hq hiq, FloatFormat.mul]
      · rw [unpack_of_finite hq hfq, FloatFormat.mul, if_neg (units_ne_zero hzq)]
    · rw [unpack_of_infinite hq hiq]
      obtain hip | hfp := infinite_or_finite hnp
      · rw [unpack_of_infinite hp hip, FloatFormat.mul]
      · rw [unpack_of_finite hp hfp, FloatFormat.mul, if_neg (units_ne_zero hzp)]
  · refine isFloatOp_div.pushesInfinity h ?_
    rw [Bool.bne_eq_xor]
    obtain ⟨hip, hfq⟩ | ⟨hfp, hzp, hzq⟩ := hcase
    · rw [unpack_of_infinite hp hip, unpack_of_finite hq hfq, FloatFormat.div]
    · rw [unpack_of_finite hp hfp, hf.unpack_of_zero hq hzq, FloatFormat.div,
        if_pos rfl, if_neg (units_ne_zero hzp)]
  · refine isFloatOp_div.pushesSome h ?_ (FloatFormat.pack_lt f.signBit_pos)
      ⟨f.zero_pack_zero (f.signOf p != f.signOf q), FloatFormat.signOf_pack f.signBit_pos⟩
    rw [unpack_of_finite hp hfp, unpack_of_infinite hq hiq, FloatFormat.div, Bool.bne_eq_xor]

end Sys2Proof
end
